-- ==== Sys2Proof/Word.lean ====
section
/-! DEFINITION. The word types of the block. Every value is unsigned (R11) and bit 0 is the least
significant bit (R9). -/

namespace Sys2Proof

/-- An image byte, `SRC`, `VAL`, the running value of the header checksum. -/
abbrev Byte := BitVec 8

/-- `RESULT` holds 16 bits (R28). -/
abbrev Half := BitVec 16

/-- A command word, a register-port word, `IMG_LEN` (R21, R35, R70). -/
abbrev Word := BitVec 32

end Sys2Proof
end

