-- ==== Sys2Proof/Config.lean ====
section
/-! DEFINITION. The parameters of the block (R8). The ones marked OPEN, and `HCK_INIT`, which R131 lets a
model keep open, are fields of `Params`: the machine's state carries a `Params` that no step changes, so a
statement about every state holds for every value of them (log 4). `IMG_SIZE`, OPEN too, is the size of the
image behind the image port (`Image.size` in Machine/State.lean, log 3). -/

namespace Sys2Proof

/-- The parameters a model takes as an argument. -/
structure Params where
  /-- `REG_BASE`: bus address of the register block (R8, R24). OPEN. -/
  regBase : Nat
  /-- `LOGO_REF`: the 48 reference logo bytes (R8, R145). OPEN. -/
  logoRef : Vector Byte 48
  /-- `HCK_INIT`: the starting value of the running checksum (R131). -/
  hckInit : Byte
  deriving DecidableEq, Repr

namespace Config

/-- `GB_HDR_LEN`: minimum image length for the Game Boy commands (R8). -/
abbrev gbHdrLen : Nat := 0x150

/-- `NES_HDR_LEN`: minimum image length for the NES command (R8). -/
abbrev nesHdrLen : Nat := 16

/-- `HCK_LO`: first address of the header checksum region (R8). -/
abbrev hckLo : Nat := 0x134

/-- `HCK_HI`: the address after the header checksum region (R8). -/
abbrev hckHi : Nat := 0x14D

/-- `HCK_AT`: address of the stored header checksum (R8). -/
abbrev hckAt : Nat := 0x14D

/-- `GCK_AT`: address of the two bytes of the global checksum (R8). -/
abbrev gckAt : Nat := 0x14E

/-- `LOGO_AT`: first address of the logo region (R8). -/
abbrev logoAt : Nat := 0x104

/-- The logo region has 48 bytes (R8). -/
abbrev logoLen : Nat := 48

/-- `IMG_AW`: width of an image address and of `IMG_LEN` (R8). -/
abbrev imgAddrWidth : Nat := 32

/-- `ADDR_W`: width of the address field of `EXTM` (R8). -/
abbrev addrWidth : Nat := 16

/-- `NES_MAGIC`, the letters N, E, S in ASCII and 0x1A (R151; PRESUMED by the spec itself, log 7). -/
def nesMagic : List Byte := [0x4E, 0x45, 0x53, 0x1A]

/-- The first 24 bytes of the default of `LOGO_REF` (R145). -/
def logoDefaultLow : Vector Byte 24 :=
  #v[0xCE, 0xED, 0x66, 0x66, 0xCC, 0x0D, 0x00, 0x0B, 0x03, 0x73, 0x00, 0x83,
     0x00, 0x0C, 0x00, 0x0D, 0x00, 0x08, 0x11, 0x1F, 0x88, 0x89, 0x00, 0x0E]

/-- The last 24 bytes of the default of `LOGO_REF` (R145). -/
def logoDefaultHigh : Vector Byte 24 :=
  #v[0xDC, 0xCC, 0x6E, 0xE6, 0xDD, 0xDD, 0xD9, 0x99, 0xBB, 0xBB, 0x67, 0x63,
     0x6E, 0x0E, 0xEC, 0xCC, 0xDD, 0xDC, 0x99, 0x9F, 0xBB, 0xB9, 0x33, 0x3E]

/-- The default of `LOGO_REF` (R145), supplied by the spec from general knowledge: PRESUMED, log 5. Only
`State.reset` uses it; no statement rests on its bytes. -/
def logoRefDefault : Vector Byte 48 := logoDefaultLow ++ logoDefaultHigh

/-- The parameters of `State.reset`: `REG_BASE` 0 (DESIGN CHOICE, log 8), `LOGO_REF` the default of R145
(PRESUMED, log 5), `HCK_INIT` 0x00 (R131, log 6). -/
def defaultParams : Params :=
  { regBase := 0, logoRef := logoRefDefault, hckInit := 0x00 }

end Config

end Sys2Proof
end

