-- ==== Sys2Proof/Syntax.lean ====
section
/-! DEFINITION. The eight commands, one constructor per row of spec/opcode_table.json (R75). A format-B
command carries its descriptor as the assembler writes it, the bit offset and the bit WIDTH (R73, R80), not
the raw field `WM1`. -/

namespace Sys2Proof

/-- A command of the block. `off` is the bit offset, `width` the bit width, `addr` the image address. -/
inductive Instr where
  /-- `EXT off, width`: extract a field of `SRC` (R110). -/
  | ext (off width : Nat)
  /-- `EXTM off, width, addr`: extract a field of an image byte (R115). -/
  | extm (off width addr : Nat)
  /-- `ENC off, width`: encode `VAL` into a field (R120). -/
  | enc (off width : Nat)
  /-- `ENCA off, width`: encode `VAL` and OR it into `RESULT` (R125). -/
  | enca (off width : Nat)
  /-- `HCK`: verify the Game Boy header checksum (R134). -/
  | hck
  /-- `GCK`: read the Game Boy global checksum (R140). -/
  | gck
  /-- `LOGO`: compare the Game Boy logo region (R144). -/
  | logo
  /-- `MAGIC`: compare the NES magic (R150). -/
  | magic
  deriving DecidableEq, Repr

end Sys2Proof
end

