-- ==== Sys2Proof/WellFormed.lean ====
section
/-! DEFINITION. Which command terms have an encoding: the ranges of R73 and R74. A well-formed command may
still have a descriptor that leaves the byte (`off + width > 8`): it decodes, and fails when run (R79, R101). -/

namespace Sys2Proof

/-- A descriptor that format B can encode: offset 0 to 7, width 1 to 8 (R73). -/
def descriptorEncodable (off width : Nat) : Bool :=
  decide (off ≤ 7) && decide (1 ≤ width) && decide (width ≤ 8)

/-- The operands lie in the ranges their fields encode (R73, R74). -/
def Instr.wellFormed : Instr → Bool
  | .ext off width => descriptorEncodable off width
  | .extm off width addr => descriptorEncodable off width && decide (addr < 2 ^ Config.addrWidth)
  | .enc off width => descriptorEncodable off width
  | .enca off width => descriptorEncodable off width
  | .hck => true
  | .gck => true
  | .logo => true
  | .magic => true

end Sys2Proof
end

