-- ==== Sys2Proof/Decode.lean ====
section
/-! DEFINITION. The decoder of R77, total over all 2^32 words, over the opcode table of R75; then the encoder,
written from the format layouts of R71 and R72. -/

namespace Sys2Proof

/-- Why a word is illegal (R78): its `OP` names no command, or a reserved field of its format is not zero.
The machine treats both alike (`IllegalCommand`). -/
inductive Illegal where
  | opcode
  | reserved
  deriving DecidableEq, Repr

/-- What `Decode` returns (R77): a command, or `illegal` with the reason. -/
inductive Decoded where
  | command (i : Instr)
  | illegal (why : Illegal)
  deriving DecidableEq, Repr

/-- The mnemonics of the opcode table (R75). -/
inductive Opcode where
  | ext | extm | enc | enca | hck | gck | logo | magic
  deriving DecidableEq, Repr

/-- A row of the opcode table: a word w is the row's command iff `w & mask = pattern` (R75). -/
structure OpcodeRow where
  op : Opcode
  pattern : Word
  mask : Word
  deriving DecidableEq, Repr

/-- The opcode map of R75, row by row. -/
def opcodeTable : List OpcodeRow :=
  [ ⟨.ext,   0x10000000, 0xF03FFFFF⟩,
    ⟨.extm,  0x20000000, 0xF03F0000⟩,
    ⟨.enc,   0x30000000, 0xF03FFFFF⟩,
    ⟨.enca,  0x40000000, 0xF03FFFFF⟩,
    ⟨.hck,   0x50000000, 0xFFFFFFFF⟩,
    ⟨.gck,   0x60000000, 0xFFFFFFFF⟩,
    ⟨.logo,  0x70000000, 0xFFFFFFFF⟩,
    ⟨.magic, 0x80000000, 0xFFFFFFFF⟩ ]

/-- A word is the command of a row iff `(w & mask) == match` (R75). -/
def rowMatches (w : Word) (r : OpcodeRow) : Bool := w &&& r.mask == r.pattern

/-- The field `OP`, bits [31:28] (R71, R72). -/
def fieldOp (w : Word) : BitVec 4 := w.extractLsb' 28 4

/-- The bit offset, `zext(OFF)` of bits [27:25] (R71, R73). -/
def fieldOff (w : Word) : Nat := (w.extractLsb' 25 3).toNat

/-- The bit width, `zext(WM1) + 1` of bits [24:22] (R71, R73). -/
def fieldWidth (w : Word) : Nat := (w.extractLsb' 22 3).toNat + 1

/-- The image address, `zext_32(ADDR)` of bits [15:0], not scaled or sign-extended (R71, R74). -/
def fieldAddr (w : Word) : Nat := (w.extractLsb' 0 16).toNat

/-- The command of a row with the fields of the word (R77). -/
def buildCommand (op : Opcode) (w : Word) : Instr :=
  match op with
  | .ext => .ext (fieldOff w) (fieldWidth w)
  | .extm => .extm (fieldOff w) (fieldWidth w) (fieldAddr w)
  | .enc => .enc (fieldOff w) (fieldWidth w)
  | .enca => .enca (fieldOff w) (fieldWidth w)
  | .hck => .hck
  | .gck => .gck
  | .logo => .logo
  | .magic => .magic

/-- Why a word that no row matches is illegal: `OP` is 0x0 or 0x9 to 0xF, or else a reserved field is not
zero (R78). -/
def illegalReason (w : Word) : Illegal :=
  if fieldOp w = 0 ∨ 9 ≤ (fieldOp w).toNat then .opcode else .reserved

/-- `Decode` (R77): the first row that matches, or illegal. -/
def decode (w : Word) : Decoded :=
  match opcodeTable.find? (rowMatches w) with
  | some r => .command (buildCommand r.op w)
  | none => .illegal (illegalReason w)

/-- Format B (R71): `OP` [31:28], `OFF` [27:25], `WM1` [24:22], `RSV6` = 0 [21:16], `ADDR` [15:0]. -/
def formatB (op : BitVec 4) (off width addr : Nat) : Word :=
  op ++ BitVec.ofNat 3 off ++ BitVec.ofNat 3 (width - 1) ++ 0#6 ++ BitVec.ofNat 16 addr

/-- Format C (R72): `OP` [31:28], `RSV28` = 0 [27:0]. -/
def formatC (op : BitVec 4) : Word := op ++ 0#28

/-- The word of a well-formed command, by the formats of R71, R72 and the `OP` values of R75. -/
def encode : Instr → Word
  | .ext off width => formatB 0x1 off width 0
  | .extm off width addr => formatB 0x2 off width addr
  | .enc off width => formatB 0x3 off width 0
  | .enca off width => formatB 0x4 off width 0
  | .hck => formatC 0x5
  | .gck => formatC 0x6
  | .logo => formatC 0x7
  | .magic => formatC 0x8

/-- The instruction the decoder reads from the bits w of an opcode-table row of nbits bits. Every command is
one 32-bit word moved whole (R54, R70), so no byte order enters; bits above nbits are 0, and a row longer
than 32 bits is no command. -/
def decodeTableWord (nbits w : Nat) : Option Instr :=
  if nbits ≤ 32 then
    match decode (BitVec.ofNat 32 (w % 2 ^ nbits)) with
    | .command i => some i
    | .illegal _ => none
  else none

end Sys2Proof
end

