-- ==== Sys2Proof/Machine/State.lean ====
section
/-! DEFINITION. The state of the machine: the block's registers (R24, R44), and beside them what stands at its
three interfaces when a step begins (R20): the reset input, the image behind the image port, the host's accesses
still to come and the data of the host's last read; and the parameters of R8, which no step changes. -/

namespace Sys2Proof.Machine

/-- Image bytes as (address, byte) pairs in one canonical form (`Memory.wf`). An address that is not listed, and
lies below the image's size, reads as 0x00 (log 3). -/
abbrev Memory := List Host.Cell

/-- The canonical form: addresses strictly rising, and no entry equal to what an unlisted address reads as. -/
abbrev Memory.wf (m : Memory) : Prop :=
  m.Pairwise (fun a b => a.1 < b.1) ∧ ∀ c ∈ m, c.2 ≠ 0x00

/-- What is attached to the image read port (R22): `size` bytes, addresses 0 to `size` - 1. `size` is the
parameter `IMG_SIZE`, the bytes the port can deliver (R8, R242). -/
structure Image where
  size : Nat
  bytes : Memory
  deriving DecidableEq, Repr

/-- The canonical form of an image: its bytes are canonical and none is listed at or above the size. -/
abbrev Image.wf (g : Image) : Prop := g.bytes.wf ∧ ∀ c ∈ g.bytes, c.1 < g.size

/-- The fields of `STATUS` (R29). Bits [31:7] are not storage (R34). -/
structure Status where
  /-- `STATUS.ERR`, bits [3:0] (R30). -/
  err : BitVec 4
  /-- `STATUS.CKOK`, bit [4] (R31). -/
  ckok : Bool
  /-- `STATUS.TRUNC`, bit [5] (R32). -/
  trunc : Bool
  /-- `STATUS.ERRSEEN`, bit [6], sticky (R33). -/
  errSeen : Bool
  deriving DecidableEq, Repr

/-- The errors a command can end with (R200). Not traps and not faults of the machine: they are codes in
`STATUS` (R206). -/
inductive CmdError where
  | headerTooShort
  | invalidMagic
  | invalidLogo
  | invalidHeaderChecksum
  | descriptorError
  | imageRange
  | illegalCommand
  deriving DecidableEq, Repr

/-- The words of the register block by name (R24). -/
inductive PortReg where
  | cmd
  | src
  | val
  | result
  | status
  | imgLen
  | rsv18
  | rsv1C
  deriving DecidableEq, Repr

/-- The width of a host access. Only a word access is defined (R38). -/
inductive AccessSize where
  | byte
  | half
  | word
  deriving DecidableEq, Repr

/-- What can reach the block from outside (R20 to R23): the events a step serves, one a step. Addresses are bus
addresses; the register block begins at `REG_BASE` (R24). -/
inductive HostEvent where
  /-- The host reads the register port (R21). -/
  | read (size : AccessSize) (addr : Nat)
  /-- The host writes the register port (R21). -/
  | write (size : AccessSize) (addr : Nat) (data : Word)
  /-- Reset is asserted (R23, R230). -/
  | assertReset
  /-- Reset is released (R230). -/
  | releaseReset
  /-- Another image is attached to the image port, between two commands (R55, R240): `size` bytes, the listed
  cells at their addresses (a later cell for one address wins) and 0x00 at every other address (log 3). -/
  | attachImage (size : Nat) (cells : List Host.Cell)
  /-- An access by a second host sharing the block (R216). -/
  | secondHost
  deriving DecidableEq, Repr

/-- The machine stops with no fault: an error is a code in `STATUS`, not a trap, and after any command "the block
is ready for the next host access" (R206). So the type has no constructor. -/
inductive Fault where
  deriving DecidableEq, Repr

/-- Where the spec tells a model to refuse. -/
inductive Refusal where
  /-- An instruction whose meaning is not written yet. Raised only by an arm of `exec`; safe. -/
  | notModelled (mnemonic : String)
  /-- Raised by `serve` on a host access that is not an aligned 32-bit access to one of the eight offsets (R38, U8:
  "refuse"). Safe: the spec gives such an access no meaning. -/
  | badAccess
  /-- Raised by `withImage` when a command reads an image address that the image port cannot deliver, so
  `IMG_LEN` > `IMG_SIZE` (R242, U9: "refuse"). Safe: the spec gives such a read no meaning. -/
  | noImageByte
  /-- Raised by `serve` on an access by a second host (R216, U10: "refuse"). Safe: such a platform is outside the
  model. -/
  | secondHost
  deriving DecidableEq, Repr

structure State where
  /-- `SRC` (R25). -/
  src : Byte
  /-- `VAL` (R26). -/
  val : Byte
  /-- `RESULT` (R28). -/
  result : Half
  /-- `STATUS` (R29). -/
  status : Status
  /-- `IMG_LEN` (R35). -/
  imgLen : Word
  /-- The level of the reset input: true while reset is asserted (R23, R230). -/
  inReset : Bool
  /-- The image attached to the image port (R22, R42). Not the block's state: a parameter of its steps that the
  host may replace between two commands (R55). -/
  image : Image
  /-- The host's accesses still to come, oldest first (R21, R60). The model's own field (log 1). -/
  pending : List HostEvent
  /-- The data the last host read returned (R21). The model's own field (log 2). -/
  readData : Word
  /-- The parameters of R8. No step changes them (R42, log 4). -/
  params : Params
  deriving DecidableEq, Repr

/-- The outcome of a command or a step. -/
abbrev Out := Host.Outcome State Fault Refusal

/-- `STATUS` after reset (R44). -/
def Status.reset : Status := { err := 0, ckok := false, trunc := false, errSeen := false }

/-- The machine right after reset: every register at its value of R44, reset released (R230), no image attached
(log 3), no access pending (log 1), nothing read yet (log 2) and the parameters at their defaults (log 4). -/
def State.reset : State :=
  { src := 0x00, val := 0x00, result := 0x0000, status := Status.reset, imgLen := 0x00000000,
    inReset := false, image := { size := 0, bytes := [] }, pending := [], readData := 0,
    params := Config.defaultParams }

end Sys2Proof.Machine
end

