-- ==== Sys2Proof/Machine/Flags.lean ====
section
/-! DEFINITION. `STATUS`: the error codes of R200, the register's layout (R29, R34), what the end of a command
writes (R90, R204) and what a host write does (R33, R34). -/

namespace Sys2Proof.Machine

/-- `code(E)` (R200). Code 0 is "the command succeeded"; codes 8 to 15 are never written. -/
def errorCode : CmdError → BitVec 4
  | .headerTooShort => 1
  | .invalidMagic => 2
  | .invalidLogo => 3
  | .invalidHeaderChecksum => 4
  | .descriptorError => 5
  | .imageRange => 6
  | .illegalCommand => 7

/-- The code of success (R200). -/
def successCode : BitVec 4 := 0

/-- The register as the host reads it: `ERR` [3:0], `CKOK` [4], `TRUNC` [5], `ERRSEEN` [6], bits [31:7] 0
(R29, R34). -/
def statusWord (t : Status) : Word :=
  0#25 ++ BitVec.ofBool t.errSeen ++ BitVec.ofBool t.trunc ++ BitVec.ofBool t.ckok ++ t.err

/-- The last four lines of `CommandStep` (R90): the pending values reach `ERR`, `CKOK` and `TRUNC`, and
`ERRSEEN` is set if the error code is not 0. -/
def statusAfter (t : Status) (err : BitVec 4) (ckok trunc : Bool) : Status :=
  { err := err, ckok := ckok, trunc := trunc, errSeen := t.errSeen || err != 0 }

/-- A host write to `STATUS`: bit 6 set clears `ERRSEEN`; every other bit is ignored (R33, R34). -/
def statusHostWrite (t : Status) (data : Word) : Status :=
  if data.getLsbD 6 then { t with errSeen := false } else t

end Sys2Proof.Machine
end

