-- ==== Sys2Proof/Machine/Operands.lean ====
section
/-! DEFINITION. The operand forms and the pure functions of the commands: the codec primitives of R100 to R103,
the header checksum of R130, the byte comparison of R144 and R150, the global checksum of R141. -/

namespace Sys2Proof.Machine

/-- `mask(w)` = 2^w - 1, as a byte (R10). -/
def byteMask (width : Nat) : Byte := BitVec.ofNat 8 (2 ^ width - 1)

/-- A descriptor is valid iff the field lies inside one byte (R101). -/
def descriptorValid (off width : Nat) : Bool := decide (off + width ≤ 8)

/-- `Extract(b, offset, width)` (R100). -/
def fieldExtract (b : Byte) (off width : Nat) : Byte := (b >>> off) &&& byteMask width

/-- `Encode(v, offset, width)` (R102). -/
def fieldEncode (v : Byte) (off width : Nat) : Byte := (v &&& byteMask width) <<< off

/-- `Trunc(v, width)`: a set bit of v lies outside the low width bits (R103). -/
def fieldTruncates (v : Byte) (width : Nat) : Bool := v >>> width != 0

/-- `zext_16` of a byte, the form in which a codec result and the header checksum reach `RESULT` (R28). -/
def byteToResult (b : Byte) : Half := b.setWidth 16

/-- `RESULT[7:0]`, the operand of `ENCA` (R125). -/
def resultLow (r : Half) : Byte := r.extractLsb' 0 8

/-- One update of the running value, `(r - b - 1) mod 256` (R130). -/
def checksumUpdate (r b : Byte) : Byte := r - b - 1

/-- `HeaderSum` over the region's bytes in increasing address order, from the starting value (R130, R131). -/
def headerSum (init : Byte) (region : List Byte) : Byte := region.foldl checksumUpdate init

/-- The accumulated exclusive-or `d` of `LOGO` and `MAGIC` (R144, R150). -/
def diffBytes (bytes reference : List Byte) : Byte :=
  (List.zipWith (fun b r => b ^^^ r) bytes reference).foldl (fun d x => d ||| x) 0

/-- `hi ++ lo`, a 16-bit value: the first byte is bits [15:8] (R53, R141). -/
def bigEndian16 (hi lo : Byte) : Half := hi ++ lo

/-- The image addresses a command reads when its checks pass (R51). -/
def commandReads : Instr → List Nat
  | .ext _ _ => []
  | .extm _ _ addr => [addr]
  | .enc _ _ => []
  | .enca _ _ => []
  | .hck => List.range' Config.hckLo 26
  | .gck => List.range' Config.gckAt 2
  | .logo => List.range' Config.logoAt Config.logoLen
  | .magic => List.range' 0 4

end Sys2Proof.Machine
end

