-- ==== Sys2Proof/Machine/Ops.lean ====
section
/-! DEFINITION. The named operations over the image, the registers and the status that the meanings and the host
port are built from. -/

namespace Sys2Proof.Machine

/-! ### The image -/

/-- The byte at an address of a memory; an unlisted address reads 0x00 (log 3). -/
def memoryRead : Memory → Nat → Byte
  | [], _ => 0x00
  | c :: rest, a => if c.1 = a then c.2 else memoryRead rest a

/-- The memory with one byte replaced, kept canonical. The block has no such operation (R13); the platform that
attaches an image has. -/
def memoryWrite : Memory → Nat → Byte → Memory
  | [], a, b => if b = 0x00 then [] else [(a, b)]
  | c :: rest, a, b =>
    if a < c.1 then (if b = 0x00 then c :: rest else (a, b) :: c :: rest)
    else if a = c.1 then (if b = 0x00 then rest else (a, b) :: rest)
    else c :: memoryWrite rest a b

/-- The memory that listed cells make, those below the size, a later cell for one address winning. -/
def memoryOfCells (size : Nat) (cells : List Host.Cell) : Memory :=
  cells.foldl (fun m c => if c.1 < size then memoryWrite m c.1 c.2 else m) []

/-- `MemRead(addr, 1)` (R13, R52): the image byte at an address, where the image port has one. -/
def imageByte (g : Image) (a : Nat) : Option Byte :=
  if a < g.size then some (memoryRead g.bytes a) else none

/-- `MemRead(addr, n)` (R13): the n bytes from an address up, in address order, where the port has them all. -/
def imageBytes (g : Image) (a : Nat) : Nat → Option (List Byte)
  | 0 => some []
  | n + 1 =>
    match imageByte g a with
    | none => none
    | some b => (imageBytes g (a + 1) n).map (fun bs => b :: bs)

/-- Attaching an image to the port (R240). `IMG_LEN` is a register and stays as it is (R35). -/
def attachTo (s : State) (size : Nat) (cells : List Host.Cell) : State :=
  { s with image := { size := size, bytes := memoryOfCells size cells } }

/-! ### The registers -/

/-- `RESULT <- v` (R28). -/
def State.setResult (s : State) (v : Half) : State := { s with result := v }

/-- The word at a byte offset from `REG_BASE`; nothing is at a misaligned offset or at 0x20 and above (R24, R38). -/
def regAtOffset : Nat → Option PortReg
  | 0x00 => some .cmd
  | 0x04 => some .src
  | 0x08 => some .val
  | 0x0C => some .result
  | 0x10 => some .status
  | 0x14 => some .imgLen
  | 0x18 => some .rsv18
  | 0x1C => some .rsv1C
  | _ => none

/-- The byte offset of a word from `REG_BASE` (R24). -/
def regOffset : PortReg → Nat
  | .cmd => 0x00
  | .src => 0x04
  | .val => 0x08
  | .result => 0x0C
  | .status => 0x10
  | .imgLen => 0x14
  | .rsv18 => 0x18
  | .rsv1C => 0x1C

/-- The register a host access means: an aligned 32-bit access to one of the eight offsets, or none (R38, U8). -/
def portReg (p : Params) (size : AccessSize) (addr : Nat) : Option PortReg :=
  match size with
  | .word => if p.regBase ≤ addr then regAtOffset (addr - p.regBase) else none
  | .half => none
  | .byte => none

/-- What a host read returns (R24 to R37): the register zero-extended to 32 bits; `CMD` and the reserved words
read 0. -/
def readRegister (s : State) : PortReg → Word
  | .cmd => 0
  | .src => s.src.setWidth 32
  | .val => s.val.setWidth 32
  | .result => s.result.setWidth 32
  | .status => statusWord s.status
  | .imgLen => s.imgLen
  | .rsv18 => 0
  | .rsv1C => 0

/-- What a host write stores, for every word but `CMD` (R24 to R37): `SRC` and `VAL` keep bits [7:0], `IMG_LEN`
all 32, `STATUS` as R33 says; `RESULT` and the reserved words ignore it. `CMD` stores nothing (R36); the command it
issues is in `writeRegister` (Machine/HostPort.lean). -/
def storeRegister (s : State) (r : PortReg) (data : Word) : State :=
  match r with
  | .cmd => s
  | .src => { s with src := data.extractLsb' 0 8 }
  | .val => { s with val := data.extractLsb' 0 8 }
  | .result => s
  | .status => { s with status := statusHostWrite s.status data }
  | .imgLen => { s with imgLen := data }
  | .rsv18 => s
  | .rsv1C => s

/-- Every register at its reset value (R44). The image, the parameters and the host's side are not the block's
registers (R42). -/
def clearRegisters (s : State) : State :=
  { s with src := 0x00, val := 0x00, result := 0x0000, status := Status.reset, imgLen := 0x00000000 }

/-- Asserting reset (R23). -/
def raiseReset (s : State) : State := { clearRegisters s with inReset := true }

/-- Releasing reset: every register holds its value of R44 (R230). If reset was not asserted, nothing happens. -/
def lowerReset (s : State) : State :=
  if s.inReset then { clearRegisters s with inReset := false } else s

/-! ### The end of a command -/

/-- The status writes that end every command (R90). -/
def endCommand (err : BitVec 4) (ckok trunc : Bool) (s : State) : State :=
  { s with status := statusAfter s.status err ckok trunc }

/-- `raise E` (R14, R204): the command ends at once; `ERR` <- code(E), `CKOK` <- 0, `TRUNC` <- 0, `ERRSEEN` <- 1; a
register write already made stands. The block's only way of reporting an error; there is no trap (R206) and no
return (R211). -/
def raise (e : CmdError) (s : State) : Out := .next (endCommand (errorCode e) false false s)

/-- A command that ends without error, with the values it gave `CKOK` and `TRUNC` (R90). -/
def succeed (ckok trunc : Bool) (s : State) : Out := .next (endCommand successCode ckok trunc s)

/-! ### The checks a command makes before it goes on -/

/-- `if offset + width > 8: raise DescriptorError` (R101, R110). -/
def withDescriptor (off width : Nat) (s : State) (go : Out) : Out :=
  if descriptorValid off width then go else raise .descriptorError s

/-- `if IMG_LEN < len: raise HeaderTooShort` (R134, R140, R144, R150). -/
def withHeader (len : Nat) (s : State) (go : Out) : Out :=
  if s.imgLen.toNat < len then raise .headerTooShort s else go

/-- `if a >= IMG_LEN: raise ImageRange` (R115). -/
def withinImage (a : Nat) (s : State) (go : Out) : Out :=
  if s.imgLen.toNat ≤ a then raise .imageRange s else go

/-- Read n image bytes from an address up and go on with them. A read where the image port has no byte is refused
(R242, U9). -/
def withImage (a n : Nat) (s : State) (go : List Byte → Out) : Out :=
  match imageBytes s.image a n with
  | none => .refused .noImageByte
  | some bs => go bs

/-- The end of a comparing command (R144, R150): `if d != 0: raise E`, else `STATUS.CKOK <- 1`. -/
def endComparison (equal : Bool) (e : CmdError) (s : State) : Out :=
  if equal then succeed true false s else raise e s

end Sys2Proof.Machine
end

