-- ==== Sys2Proof/Machine/Checks.lean ====
section
/-! DEFINITION. The checksum validator commands (41_checksum_validator.md), and the run of an illegal word. -/

namespace Sys2Proof.Machine

/-- `HCK` (R134, R135): the computed checksum reaches `RESULT` before the comparison that may raise. -/
def execHck (s : State) : Out :=
  withHeader Config.gbHdrLen s <|
    withImage Config.hckLo (Config.hckHi - Config.hckLo) s fun region =>
      withImage Config.hckAt 1 s fun stored =>
        endComparison (stored.headD 0 == headerSum s.params.hckInit region) .invalidHeaderChecksum
          (s.setResult (byteToResult (headerSum s.params.hckInit region)))

/-- `GCK` (R140, R141): the 16-bit value is read and not verified (R142); `CKOK` is 0. -/
def execGck (s : State) : Out :=
  withHeader Config.gbHdrLen s <|
    withImage Config.gckAt 2 s fun bytes =>
      succeed false false (s.setResult (bigEndian16 (bytes.headD 0) (bytes.tail.headD 0)))

/-- `LOGO` (R144): `RESULT` is not written. -/
def execLogo (s : State) : Out :=
  withHeader Config.gbHdrLen s <|
    withImage Config.logoAt Config.logoLen s fun bytes =>
      endComparison (diffBytes bytes s.params.logoRef.toList == 0) .invalidLogo s

/-- `MAGIC` (R150): `RESULT` is not written. -/
def execMagic (s : State) : Out :=
  withHeader Config.nesHdrLen s <|
    withImage 0 4 s fun bytes =>
      endComparison (diffBytes bytes Config.nesMagic == 0) .invalidMagic s

/-- An illegal word runs as a command that ends with `IllegalCommand` and touches nothing but `STATUS` (R78). -/
def execIllegal (s : State) : Out := raise .illegalCommand s

end Sys2Proof.Machine
end

