-- ==== Sys2Proof/Machine/Codec.lean ====
section
/-! DEFINITION. The bit-field codec commands (40_bitfield_codec.md). -/

namespace Sys2Proof.Machine

/-- `EXT off, width` (R110). -/
def execExt (off width : Nat) (s : State) : Out :=
  withDescriptor off width s
    (succeed false false (s.setResult (byteToResult (fieldExtract s.src off width))))

/-- `EXTM off, width, addr` (R115): the descriptor is checked first, then the range, then one byte is read. -/
def execExtm (off width addr : Nat) (s : State) : Out :=
  withDescriptor off width s <|
    withinImage addr s <|
      withImage addr 1 s fun bytes =>
        succeed false false
          (s.setResult (byteToResult (fieldExtract (bytes.headD 0) off width)))

/-- `ENC off, width` (R120). -/
def execEnc (off width : Nat) (s : State) : Out :=
  withDescriptor off width s
    (succeed false (fieldTruncates s.val width)
      (s.setResult (byteToResult (fieldEncode s.val off width))))

/-- `ENCA off, width` (R125): the field is not cleared first, and `RESULT[15:8]` is. -/
def execEnca (off width : Nat) (s : State) : Out :=
  withDescriptor off width s
    (succeed false (fieldTruncates s.val width)
      (s.setResult (byteToResult (resultLow s.result ||| fieldEncode s.val off width))))

end Sys2Proof.Machine
end

