-- ==== Sys2Proof/Machine/Dispatch.lean ====
section
/-! DEFINITION. One arm per command. -/

namespace Sys2Proof.Machine

open Sys2Proof

def exec (i : Instr) (s : State) : Host.Outcome State Fault Refusal :=
  match i with
  | .ext off width => Sys2Proof.Machine.execExt off width s
  | .extm off width addr => Sys2Proof.Machine.execExtm off width addr s
  | .enc off width => Sys2Proof.Machine.execEnc off width s
  | .enca off width => Sys2Proof.Machine.execEnca off width s
  | .hck => Sys2Proof.Machine.execHck s
  | .gck => Sys2Proof.Machine.execGck s
  | .logo => Sys2Proof.Machine.execLogo s
  | .magic => Sys2Proof.Machine.execMagic s

end Sys2Proof.Machine
end

