-- ==== Sys2Proof/Machine/HostPort.lean ====
section
/-! DEFINITION. The three interfaces at work (R20): the command step of R90, the register port of R21, the reset
input of R230, and the service of the host's accesses in the order it issues them (R60). -/

namespace Sys2Proof.Machine

/-- `CommandStep(w)` (R90): decode the word and run its command, or the illegal command, to its end. -/
def commandStep (w : Word) (s : State) : Out :=
  match decode w with
  | .command i => exec i s
  | .illegal _ => execIllegal s

/-- A host write to a register word: `CMD` issues a command (R36), the others store or ignore the data. -/
def writeRegister (r : PortReg) (data : Word) (s : State) : Out :=
  match r with
  | .cmd => commandStep data s
  | .src => .next (storeRegister s .src data)
  | .val => .next (storeRegister s .val data)
  | .result => .next (storeRegister s .result data)
  | .status => .next (storeRegister s .status data)
  | .imgLen => .next (storeRegister s .imgLen data)
  | .rsv18 => .next (storeRegister s .rsv18 data)
  | .rsv1C => .next (storeRegister s .rsv1C data)

/-- A host read through the port. While reset is asserted a read returns 0 (R230). -/
def portRead (s : State) (r : PortReg) : Word := if s.inReset then 0 else readRegister s r

/-- One event from outside. A malformed access is refused (R38) whether or not reset is asserted (log 9); while
reset is asserted a write has no effect (R230). -/
def serve (e : HostEvent) (s : State) : Out :=
  match e with
  | .read size addr =>
    match portReg s.params size addr with
    | none => .refused .badAccess
    | some r => .next { s with readData := portRead s r }
  | .write size addr data =>
    match portReg s.params size addr with
    | none => .refused .badAccess
    | some r => if s.inReset then .next s else writeRegister r data s
  | .assertReset => .next (raiseReset s)
  | .releaseReset => .next (lowerReset s)
  | .attachImage size cells => .next (attachTo s size cells)
  | .secondHost => .refused .secondHost

/-- The oldest pending event is served; with none pending the block does nothing (R60, R218). -/
def serveNext (s : State) : Out :=
  match s.pending with
  | [] => .next s
  | e :: rest => serve e { s with pending := rest }

/-- A host write of a word to `CMD` placed as the next access, with reset released, so that the next step runs it.
Bits of w above nbits are 0. -/
def withCommandNext (s : State) (nbits w : Nat) : State :=
  { s with
    inReset := false
    pending :=
      .write .word (s.params.regBase + regOffset .cmd) (BitVec.ofNat 32 (w % 2 ^ nbits)) :: s.pending }

end Sys2Proof.Machine
end

