-- ==== Sys2Proof/Machine/Step.lean ====
section
/-! DEFINITION. One step: the block serves the next host access, a command with it from its first read to its last
write (R90). -/

namespace Sys2Proof.Machine

/-- One step of the machine. -/
def step (s : State) : Host.Outcome State Fault Refusal := serveNext s

/-- The state in which the next step runs the command word w (an opcode-table row of nbits bits): the block fetches
nothing (R27), so the word stands in the host's next write to `CMD` (log 1). -/
def State.withFetchWord (s : State) (nbits w : Nat) : State := withCommandNext s nbits w

end Sys2Proof.Machine
end

