-- ==== Sys2Proof/Machine/Assembler.lean ====
section
/-! DEFINITION. The host's side of the port as text: the assembler of R80, the host statements of R81 and the
pseudo-instructions of R82. A host sequence becomes the list of events the block serves. None of it changes the
machine (D30). -/

namespace Sys2Proof.Machine

/-- A statement of a host sequence (R81): `wr NAME, v`, `rd NAME`, or a line holding a command. -/
inductive HostStmt where
  | wr (r : PortReg) (v : Word)
  | rd (r : PortReg)
  | command (i : Instr)
  deriving DecidableEq, Repr

/-- The pseudo-instructions (R82). -/
inductive Pseudo where
  | bit (n : Nat)
  | lonib
  | hinib
  | mbit (n addr : Nat)
  | mlonib (addr : Nat)
  | mhinib (addr : Nat)
  | mbyte (addr : Nat)
  | setsrc (v : Word)
  | setval (v : Word)
  | setlen (n : Word)
  | clrerr
  | put (off width : Nat) (v : Word)
  | puta (off width : Nat) (v : Word)
  deriving DecidableEq, Repr

/-- The expansion of a pseudo-instruction (R82). -/
def expandPseudo : Pseudo → List HostStmt
  | .bit n => [.command (.ext n 1)]
  | .lonib => [.command (.ext 0 4)]
  | .hinib => [.command (.ext 4 4)]
  | .mbit n addr => [.command (.extm n 1 addr)]
  | .mlonib addr => [.command (.extm 0 4 addr)]
  | .mhinib addr => [.command (.extm 4 4 addr)]
  | .mbyte addr => [.command (.extm 0 8 addr)]
  | .setsrc v => [.wr .src v]
  | .setval v => [.wr .val v]
  | .setlen n => [.wr .imgLen n]
  | .clrerr => [.wr .status 0x40]
  | .put off width v => [.wr .val v, .command (.enc off width)]
  | .puta off width v => [.wr .val v, .command (.enca off width)]

/-- The descriptor of a command lies in one byte; a format-C command has none (R80, R101). -/
def descriptorFits : Instr → Bool
  | .ext off width => descriptorValid off width
  | .extm off width _ => descriptorValid off width
  | .enc off width => descriptorValid off width
  | .enca off width => descriptorValid off width
  | .hck => true
  | .gck => true
  | .logo => true
  | .magic => true

/-- An assembler refuses an operand outside its range, and `off + width > 8` (R80). -/
def assemblerAccepts (i : Instr) : Bool := i.wellFormed && descriptorFits i

/-- The word of a command line, where the assembler accepts it (R80). -/
def assembleCommand (i : Instr) : Option Word :=
  if assemblerAccepts i then some (encode i) else none

/-- The access a host statement is (R81): a command line is `wr CMD, <its encoding>`. -/
def assembleStmt (p : Params) : HostStmt → Option HostEvent
  | .wr r v => some (.write .word (p.regBase + regOffset r) v)
  | .rd r => some (.read .word (p.regBase + regOffset r))
  | .command i => (assembleCommand i).map (fun w => .write .word (p.regBase + regOffset .cmd) w)

/-- The accesses of a host sequence, in order; none if the assembler refuses a line. -/
def assembleAll (p : Params) (stmts : List HostStmt) : Option (List HostEvent) :=
  stmts.mapM (assembleStmt p)

/-- The boot order of R240: attach the image, then write its length to `IMG_LEN`. The spec does not say what the host
writes for an image of 2^32 bytes or more, whose length the register cannot hold: DESIGN CHOICE, the length mod 2^32
(log 21). -/
def bootEvents (p : Params) (size : Nat) (cells : List Host.Cell) : List HostEvent :=
  [.attachImage size cells,
   .write .word (p.regBase + regOffset .imgLen) (BitVec.ofNat 32 size)]

/-! ### The written form -/

/-- The digits of both bases in order of their values; base 10 has the first ten (R80). -/
def numeralDigits : List Char :=
  ['0', '1', '2', '3', '4', '5', '6', '7', '8', '9', 'A', 'B', 'C', 'D', 'E', 'F']

/-- The value of a digit is its place among the digits; a small letter stands for its capital (log 17). -/
def digitValue (c : Char) : Option Nat := numeralDigits.idxOf? c.toUpper

/-- The number digits make in a base, most significant digit first, after the number already read. -/
def digitsFrom (base : Nat) : Nat → List Char → Option Nat
  | acc, [] => some acc
  | acc, c :: rest =>
    match digitValue c with
    | none => none
    | some d => if d < base then digitsFrom base (acc * base + d) rest else none

/-- A number: decimal, or hexadecimal with `0x` (R80). -/
def parseNumber : List Char → Option Nat
  | [] => none
  | ['0', 'x'] => none
  | '0' :: 'x' :: ds => digitsFrom 16 0 ds
  | ds => digitsFrom 10 0 ds

/-- A value as the 32-bit value of a host statement, where it is one (R81). -/
def wordOf (n : Nat) : Option Word := if n < 2 ^ 32 then some (BitVec.ofNat 32 n) else none

/-- The 32-bit value v of a host statement (R81). -/
def parseWord (cs : List Char) : Option Word := (parseNumber cs).bind wordOf

/-- Leading blanks dropped. -/
def dropBlanks : List Char → List Char
  | [] => []
  | c :: rest => if c = ' ' then dropBlanks rest else c :: rest

/-- Blanks dropped at both ends. -/
def trimBlanks (cs : List Char) : List Char := (dropBlanks (dropBlanks cs).reverse).reverse

/-- The text before the first blank, and the text after it. -/
def firstWord : List Char → List Char × List Char
  | [] => ([], [])
  | c :: rest => if c = ' ' then ([], rest) else (c :: (firstWord rest).1, (firstWord rest).2)

/-- The operands, separated by commas (R80): the list of the pieces between them. -/
def splitCommas : List Char → List (List Char)
  | [] => [[]]
  | c :: rest =>
    if c = ',' then [] :: splitCommas rest
    else (c :: (splitCommas rest).headD []) :: (splitCommas rest).tail

/-- The operands of a line, trimmed; no operands if nothing follows the mnemonic. -/
def parseOperands (cs : List Char) : List (List Char) :=
  if trimBlanks cs = [] then [] else (splitCommas cs).map trimBlanks

/-- A register by its name (R24, R81). -/
def parseReg (name : String) : Option PortReg :=
  match name with
  | "CMD" => some .cmd
  | "SRC" => some .src
  | "VAL" => some .val
  | "RESULT" => some .result
  | "STATUS" => some .status
  | "IMG_LEN" => some .imgLen
  | _ => none

/-- A command by its mnemonic and its numbers, in the operand order of R80. -/
def parseCommand (mnemonic : String) (ns : List Nat) : Option Instr :=
  match mnemonic, ns with
  | "EXT", [off, width] => some (.ext off width)
  | "EXTM", [off, width, addr] => some (.extm off width addr)
  | "ENC", [off, width] => some (.enc off width)
  | "ENCA", [off, width] => some (.enca off width)
  | "HCK", [] => some .hck
  | "GCK", [] => some .gck
  | "LOGO", [] => some .logo
  | "MAGIC", [] => some .magic
  | _, _ => none

/-- A pseudo-instruction by its mnemonic and its numbers (R82). -/
def parsePseudo (mnemonic : String) (ns : List Nat) : Option Pseudo :=
  match mnemonic, ns with
  | "BIT", [n] => some (.bit n)
  | "LONIB", [] => some .lonib
  | "HINIB", [] => some .hinib
  | "MBIT", [n, addr] => some (.mbit n addr)
  | "MLONIB", [addr] => some (.mlonib addr)
  | "MHINIB", [addr] => some (.mhinib addr)
  | "MBYTE", [addr] => some (.mbyte addr)
  | "SETSRC", [v] => (wordOf v).map .setsrc
  | "SETVAL", [v] => (wordOf v).map .setval
  | "SETLEN", [n] => (wordOf n).map .setlen
  | "CLRERR", [] => some .clrerr
  | "PUT", [off, width, v] => (wordOf v).map (.put off width)
  | "PUTA", [off, width, v] => (wordOf v).map (.puta off width)
  | _, _ => none

/-- A line whose operands are all numbers: a command or a pseudo-instruction. -/
def parseNumeric (mnemonic : String) (ns : List Nat) : Option (List HostStmt) :=
  match parseCommand mnemonic ns with
  | some i => some [.command i]
  | none => (parsePseudo mnemonic ns).map expandPseudo

/-- The statements a line of a host sequence stands for (R80, R81, R82), or none where it is no such line. -/
def parseLine (line : String) : Option (List HostStmt) :=
  let parts := firstWord (dropBlanks line.toList)
  let mnemonic := String.ofList parts.1
  let ops := parseOperands parts.2
  match mnemonic, ops with
  | "wr", [name, v] =>
    match parseReg (String.ofList name), parseWord v with
    | some r, some d => some [.wr r d]
    | _, _ => none
  | "rd", [name] => (parseReg (String.ofList name)).map (fun r => [.rd r])
  | _, _ =>
    match ops.mapM parseNumber with
    | some ns => parseNumeric mnemonic ns
    | none => none

/-- A line of a host sequence assembled to the accesses the host makes (R80, R81). -/
def assembleLine (p : Params) (line : String) : Option (List HostEvent) :=
  (parseLine line).bind (assembleAll p)

end Sys2Proof.Machine
end

