-- ==== Sys2Proof/Machine/Catalogue.lean ====
section
/-! DEFINITION. The catalogue of header field descriptors (42_field_catalogue.md). The block holds no such table:
it is host software's, and each entry is the `EXTM` that leaves the field in `RESULT`. Positions the source gives
only by the order of a list are the spec's own reading (D27, log 16). -/

namespace Sys2Proof.Machine

/-- The header fields of the catalogue. -/
inductive HeaderField where
  /-- Game Boy: GBC-support flag (R160). -/
  | gbcSupport
  /-- Game Boy: SGB-support flag (R161). -/
  | sgbSupport
  /-- Game Boy whole bytes (R162). -/
  | gbcFlagByte | cartridgeType | romSizeExponent | ramSizeCode | destination | oldLicensee | version
  | headerChecksum
  /-- NES byte 6 (R165). -/
  | mirroring | battery | trainer | altNametable | mapperLow
  /-- NES byte 7 (R166). -/
  | consoleType | formatSelector | mapperHigh
  /-- NES bytes 4 and 5 (R167). -/
  | prgSizeLsb | chrSizeLsb
  /-- The four whole bytes of the legacy-tool test (R168). -/
  | legacy12 | legacy13 | legacy14 | legacy15
  /-- NES 2.0 byte 8, low nibble (the source's submapper) and high nibble (R175). -/
  | submapper | byte8High
  /-- iNES byte 8, the PRG RAM size (R176). -/
  | prgRamUnits
  /-- NES 2.0 byte 9 (R177). -/
  | prgSizeMsb | chrSizeMsb
  /-- NES 2.0 bytes 10 and 11 (R178). -/
  | prgRamShift | prgNvramShift | chrRamShift | chrNvramShift
  /-- NES 2.0 byte 12 (R179). -/
  | timingMode
  /-- NES 2.0 byte 13 (R180). -/
  | ppuType | hardwareType | extendedConsole | byte13
  deriving DecidableEq, Repr

/-- The command that leaves a field in `RESULT` (R160 to R180). -/
def fieldCommand : HeaderField → Instr
  | .gbcSupport => .extm 7 1 0x143
  | .sgbSupport => .extm 7 1 0x146
  | .gbcFlagByte => .extm 0 8 0x143
  | .cartridgeType => .extm 0 8 0x147
  | .romSizeExponent => .extm 0 8 0x148
  | .ramSizeCode => .extm 0 8 0x149
  | .destination => .extm 0 8 0x14A
  | .oldLicensee => .extm 0 8 0x14B
  | .version => .extm 0 8 0x14C
  | .headerChecksum => .extm 0 8 0x14D
  | .mirroring => .extm 0 1 6
  | .battery => .extm 1 1 6
  | .trainer => .extm 2 1 6
  | .altNametable => .extm 3 1 6
  | .mapperLow => .extm 4 4 6
  | .consoleType => .extm 0 2 7
  | .formatSelector => .extm 2 2 7
  | .mapperHigh => .extm 4 4 7
  | .prgSizeLsb => .extm 0 8 4
  | .chrSizeLsb => .extm 0 8 5
  | .legacy12 => .extm 0 8 12
  | .legacy13 => .extm 0 8 13
  | .legacy14 => .extm 0 8 14
  | .legacy15 => .extm 0 8 15
  | .submapper => .extm 0 4 8
  | .byte8High => .extm 4 4 8
  | .prgRamUnits => .extm 0 8 8
  | .prgSizeMsb => .extm 0 4 9
  | .chrSizeMsb => .extm 4 4 9
  | .prgRamShift => .extm 0 4 10
  | .prgNvramShift => .extm 4 4 10
  | .chrRamShift => .extm 0 4 11
  | .chrNvramShift => .extm 4 4 11
  | .timingMode => .extm 0 2 12
  | .ppuType => .extm 0 4 13
  | .hardwareType => .extm 4 4 13
  | .extendedConsole => .extm 0 4 13
  | .byte13 => .extm 0 8 13

/-- The format an NES image has, decided by the host from the format selector (R172). -/
inductive NesFormat where
  | iNES
  | nes20
  deriving DecidableEq, Repr

/-- NES 2.0 iff the selector in `RESULT` is 2; any other value means iNES (R172). -/
def formatOfSelector (result : Half) : NesFormat := if result = 2 then .nes20 else .iNES

/-- The timing modes of byte 12 (R179). -/
inductive TimingMode where
  | ntsc
  | pal
  | multiRegion
  | dendy
  deriving DecidableEq, Repr

/-- The timing mode of a field value, in the order of the source's list (R179). -/
def timingOfField (result : Half) : Option TimingMode :=
  if result = 0 then some .ntsc
  else if result = 1 then some .pal
  else if result = 2 then some .multiRegion
  else if result = 3 then some .dendy
  else none

/-- The bytes a shift count of bytes 10 and 11 means (R178). -/
def shiftCountBytes (n : Nat) : Nat := if n = 0 then 0 else 64 <<< n

/-- The legacy-tool test of R168: the four bytes read whole and ORed by the host are not all zero. -/
def legacyBytesSet (b12 b13 b14 b15 : Half) : Bool := (b12 ||| b13 ||| b14 ||| b15) != 0

/-- The commands a host issues for the first error of the source's Game Boy decoder, in order; the cartridge type
between them is the host's own decision (R210). -/
def gbDecoderChecks : List Instr := [.logo, .hck]

/-- The same for the source's NES decoder (R210). -/
def nesDecoderChecks : List Instr := [.magic]

end Sys2Proof.Machine
end

