-- ==== Sys2Proof/Safety.lean ====
section
/-! DEFINITION. What a safe run is. The machine has no faults; what can stop it is a host that breaks a duty of
70_reset_and_hazards.md section 3 or makes an access the port does not define. A claim about runs assumes
`StepDuty` of each step. -/

namespace Sys2Proof.Machine

/-- The duty of R242: `IMG_LEN` is at most `IMG_SIZE`, the bytes the image port can deliver. -/
abbrev LengthDuty (s : State) : Prop := s.imgLen.toNat ≤ s.image.size

/-- The next event is one the model has a step for: an access the port defines (R38), by the one host (R243); and
where it is a write to `CMD` that issues a command, the duty of R242 holds. -/
def eventDuty (e : HostEvent) (s : State) : Prop :=
  match e with
  | .read size addr => (portReg s.params size addr).isSome
  | .write size addr _ =>
    (portReg s.params size addr).isSome ∧
      (portReg s.params size addr = some .cmd → s.inReset = false → LengthDuty s)
  | .assertReset => True
  | .releaseReset => True
  | .attachImage _ _ => True
  | .secondHost => False

/-- The host does its duty in the next step. -/
def StepDuty (s : State) : Prop :=
  match s.pending with
  | [] => True
  | e :: _ => eventDuty e s

/-- The host does its duty in each of the next n steps. -/
def SafeRun : Nat → State → Prop
  | 0, _ => True
  | n + 1, s => StepDuty s ∧ ∀ t, step s = .next t → SafeRun n t

/-- The `STATUS` of a command that succeeds, beside the `ERRSEEN` it found (R90). -/
def Status.success (t : Status) (ckok trunc : Bool) : Status :=
  { err := 0, ckok := ckok, trunc := trunc, errSeen := t.errSeen }

/-- The `STATUS` of a command that ends with the error of a code (R204). -/
def Status.failure (code : BitVec 4) : Status :=
  { err := code, ckok := false, trunc := false, errSeen := true }

/-- The image length a command asks for before it reads (R115, R134, R140, R144, R150). -/
def lengthNeeded : Instr → Nat
  | .ext _ _ => 0
  | .extm _ _ addr => addr + 1
  | .enc _ _ => 0
  | .enca _ _ => 0
  | .hck => 0x150
  | .gck => 0x150
  | .logo => 0x150
  | .magic => 16

/-- The code of the error a command ends with where `IMG_LEN` is below that length (R200). -/
def lengthErrorCode : Instr → BitVec 4
  | .extm _ _ _ => 6
  | .ext _ _ => 1
  | .enc _ _ => 1
  | .enca _ _ => 1
  | .hck => 1
  | .gck => 1
  | .logo => 1
  | .magic => 1

/-- `STATUS` as commands leave it: no reserved error code (R200, U7); `CKOK` and `TRUNC` only after success, and
never together (R31, R32). -/
def Status.consistent (t : Status) : Prop :=
  t.err ≤ 7 ∧ (t.ckok = true → t.err = 0) ∧ (t.trunc = true → t.err = 0) ∧
    ¬(t.ckok = true ∧ t.trunc = true)

/-- While reset is asserted every register holds its reset value (R23). -/
def resetHolds (s : State) : Prop :=
  s.inReset = true →
    s.src = 0 ∧ s.val = 0 ∧ s.result = 0 ∧ s.status = Status.reset ∧ s.imgLen = 0

/-- The invariant of the machine: the image is canonical, `STATUS` is one a command can leave, and reset holds the
registers. -/
def State.Inv (s : State) : Prop :=
  s.image.wf ∧ s.status.consistent ∧ resetHolds s

end Sys2Proof.Machine
end

