-- ==== Sys2Proof/Certificates/Slice0/Obligations.lean ====
section
/-! DEFINITION. The statements for the provers. "Next" is a next state of the machine; a statement about every state
holds for every value of the parameters and every image. -/

open Sys2Proof Sys2Proof.Machine

/-! ### Encoding (30_encoding.md) -/

/-- Decoding the word of a well-formed command gives the command back, with every operand (R71 to R75). -/
def Obligations.DecodeOfEncode : Prop :=
  ∀ i : Instr, i.wellFormed = true → decode (encode i) = .command i

/-- A word that decodes is the word of the command it decodes to, which is well-formed: no two words are one
command (R71 to R75, R77). -/
def Obligations.EncodeOfDecode : Prop :=
  ∀ (w : Word) (i : Instr), decode w = .command i → i.wellFormed = true ∧ encode i = w

/-- R77, which the spec derives from R75: decoding is total; at most one row matches a word; the row that matches
gives the command, with OFF = w[27:25], WM1 = w[24:22], ADDR = w[15:0]; a word that no row matches is illegal. -/
def Obligations.OpcodeRowsDecide : Prop :=
  ∀ w : Word,
    (∀ r ∈ opcodeTable, ∀ r' ∈ opcodeTable,
      w &&& r.mask = r.pattern → w &&& r'.mask = r'.pattern → r = r') ∧
    (∀ r ∈ opcodeTable, w &&& r.mask = r.pattern →
      decode w = .command (
        let off := ((w >>> 25) &&& 0x7).toNat
        let width := ((w >>> 22) &&& 0x7).toNat + 1
        let addr := (w &&& 0xFFFF).toNat
        match r.op with
        | .ext => .ext off width
        | .extm => .extm off width addr
        | .enc => .enc off width
        | .enca => .enca off width
        | .hck => .hck
        | .gck => .gck
        | .logo => .logo
        | .magic => .magic)) ∧
    ((∀ r ∈ opcodeTable, w &&& r.mask ≠ r.pattern) → ∃ why, decode w = .illegal why)

/-- R78: exactly these words are illegal, and an illegal word runs as a command that ends with `IllegalCommand` and
touches nothing but `STATUS`; the all-zero word is one. -/
def Obligations.IllegalWordsRunAsIllegalCommand : Prop :=
  (∀ w : Word, (∃ why, decode w = .illegal why) ↔
    let op := (w.extractLsb' 28 4).toNat
    op = 0 ∨ 9 ≤ op ∨
      ((op = 1 ∨ op = 3 ∨ op = 4) ∧ w.extractLsb' 0 22 ≠ 0) ∨
      (op = 2 ∧ w.extractLsb' 16 6 ≠ 0) ∨
      ((op = 5 ∨ op = 6 ∨ op = 7 ∨ op = 8) ∧ w.extractLsb' 0 28 ≠ 0)) ∧
  (∀ (w : Word) (why : Illegal) (s : State), decode w = .illegal why →
    commandStep w s = .next { s with status := Status.failure 7 }) ∧
  (∃ why, decode 0 = .illegal why)

/-- Words written out from the encodings of R71 to R75 decode to the commands they stand for. -/
def Obligations.SpecWordsDecode : Prop :=
  decode 0x14800000 = .command (.ext 2 3) ∧
  decode 0x24400007 = .command (.extm 2 2 7) ∧
  decode 0x21C0FFFF = .command (.extm 0 8 0xFFFF) ∧
  decode 0x30C00000 = .command (.enc 0 4) ∧
  decode 0x48C00000 = .command (.enca 4 4) ∧
  decode 0x50000000 = .command .hck ∧
  decode 0x60000000 = .command .gck ∧
  decode 0x70000000 = .command .logo ∧
  decode 0x80000000 = .command .magic

/-- R80: the word of each command line the assembler accepts, and its refusal of an operand outside its range and of
`off + width > 8`. -/
def Obligations.AssemblerWords : Prop :=
  (∀ off width : Nat,
    let fits := off ≤ 7 ∧ 1 ≤ width ∧ width ≤ 8 ∧ off + width ≤ 8
    let fields : Word := BitVec.ofNat 32 off <<< 25 ||| BitVec.ofNat 32 (width - 1) <<< 22
    (fits →
      assembleCommand (.ext off width) = some (0x1#32 <<< 28 ||| fields) ∧
      assembleCommand (.enc off width) = some (0x3#32 <<< 28 ||| fields) ∧
      assembleCommand (.enca off width) = some (0x4#32 <<< 28 ||| fields)) ∧
    (¬fits →
      assembleCommand (.ext off width) = none ∧ assembleCommand (.enc off width) = none ∧
        assembleCommand (.enca off width) = none) ∧
    (∀ addr : Nat,
      (fits → addr ≤ 0xFFFF →
        assembleCommand (.extm off width addr) =
          some (0x2#32 <<< 28 ||| fields ||| BitVec.ofNat 32 addr)) ∧
      (¬(fits ∧ addr ≤ 0xFFFF) → assembleCommand (.extm off width addr) = none))) ∧
  assembleCommand .hck = some 0x50000000 ∧ assembleCommand .gck = some 0x60000000 ∧
  assembleCommand .logo = some 0x70000000 ∧ assembleCommand .magic = some 0x80000000

/-! ### The codec primitives (40_bitfield_codec.md section 1) -/

/-- `Extract` and `Encode` bit by bit: bit k of an extraction is bit `off + k` of the byte inside the field and 0
outside it; bit k of an encoding is bit `k - off` of the value inside the field and 0 outside it (R100, R102). -/
def Obligations.FieldBits : Prop :=
  ∀ (b : Byte) (off width k : Nat), off + width ≤ 8 →
    (fieldExtract b off width).getLsbD k = (decide (k < width) && b.getLsbD (off + k)) ∧
    (fieldEncode b off width).getLsbD k =
      (decide (off ≤ k ∧ k < off + width) && b.getLsbD (k - off))

/-- R103: `Encode` keeps the low width bits of v, at the field's place, and discards the rest; `Trunc` is 1 exactly when
a set bit was discarded; for width 8 it is 0. -/
def Obligations.FieldTruncation : Prop :=
  ∀ (v : Byte) (off width : Nat), off + width ≤ 8 →
    (fieldEncode v off width >>> off).toNat = v.toNat % 2 ^ width ∧
    fieldEncode v off width = fieldEncode (BitVec.ofNat 8 (v.toNat % 2 ^ width)) off width ∧
    (fieldTruncates v width = true ↔ ∃ k, width ≤ k ∧ v.getLsbD k = true) ∧
    (fieldTruncates v width = ((v >>> width) != 0)) ∧
    (width = 8 → fieldTruncates v width = false)

/-- The three round-trip laws, which the spec derives (R104). -/
def Obligations.FieldRoundTripLaws : Prop :=
  ∀ (b v : Byte) (off width : Nat), 1 ≤ width → off + width ≤ 8 →
    fieldExtract (fieldEncode v off width) off width = v &&& BitVec.ofNat 8 (2 ^ width - 1) ∧
    fieldEncode (fieldExtract b off width) off width = b &&& (BitVec.ofNat 8 (2 ^ width - 1) <<< off) ∧
    fieldExtract b off (8 - off) = b >>> off

/-- R105, which the spec derives: for valid descriptors whose bit ranges do not overlap, each field of the OR of two
encodings reads back as its value; in particular for bits 0 to 3 and 4 to 7; and whatever the ranges, an extraction
of an OR is the OR of the extractions, so no set bit is lost. -/
def Obligations.FieldPackingLaw : Prop :=
  (∀ (v1 v2 : Byte) (o1 w1 o2 w2 : Nat),
    1 ≤ w1 → o1 + w1 ≤ 8 → 1 ≤ w2 → o2 + w2 ≤ 8 → (o1 + w1 ≤ o2 ∨ o2 + w2 ≤ o1) →
      fieldExtract (fieldEncode v1 o1 w1 ||| fieldEncode v2 o2 w2) o1 w1 =
        v1 &&& BitVec.ofNat 8 (2 ^ w1 - 1) ∧
      fieldExtract (fieldEncode v1 o1 w1 ||| fieldEncode v2 o2 w2) o2 w2 =
        v2 &&& BitVec.ofNat 8 (2 ^ w2 - 1)) ∧
  (∀ x y : Byte,
    fieldExtract (fieldEncode x 0 4 ||| fieldEncode y 4 4) 0 4 = x &&& 0xF ∧
    fieldExtract (fieldEncode x 0 4 ||| fieldEncode y 4 4) 4 4 = y &&& 0xF) ∧
  (∀ (x y : Byte) (o w : Nat), o + w ≤ 8 →
    fieldExtract (x ||| y) o w = fieldExtract x o w ||| fieldExtract y o w)

/-! ### What each command computes, and that it completes

The next state is given whole: a field that does not stand in the update is unchanged, the image, `SRC`, `VAL`,
`IMG_LEN` and the host's side among them. -/

/-- `EXT` on a valid descriptor: `RESULT` is `SRC` / 2^off mod 2^width (R100, R110). -/
def Obligations.ExtExtractsFieldOfSrc : Prop :=
  ∀ (s : State) (off width : Nat), 1 ≤ width → off + width ≤ 8 →
    ∃ r : Half, r.toNat = s.src.toNat / 2 ^ off % 2 ^ width ∧
      exec (.ext off width) s =
        .next { s with result := r, status := s.status.success false false }

/-- `EXTM` on a valid descriptor and an address below `IMG_LEN` that the image port can deliver: `RESULT` is the image
byte / 2^off mod 2^width (R100, R115). -/
def Obligations.ExtmExtractsFieldOfImageByte : Prop :=
  ∀ (s : State) (off width addr : Nat), 1 ≤ width → off + width ≤ 8 → addr ≤ 0xFFFF →
    addr < s.imgLen.toNat → addr < s.image.size →
    ∃ r : Half, r.toNat = (memoryRead s.image.bytes addr).toNat / 2 ^ off % 2 ^ width ∧
      exec (.extm off width addr) s =
        .next { s with result := r, status := s.status.success false false }

/-- `ENC` on a valid descriptor: `RESULT` is (`VAL` mod 2^width) * 2^off whatever it was, and `TRUNC` says whether
`VAL` did not fit (R102, R103, R120). -/
def Obligations.EncEncodesVal : Prop :=
  ∀ (s : State) (off width : Nat), 1 ≤ width → off + width ≤ 8 →
    ∃ r : Half, r.toNat = s.val.toNat % 2 ^ width * 2 ^ off ∧
      exec (.enc off width) s =
        .next { s with
          result := r
          status := s.status.success false (decide (2 ^ width ≤ s.val.toNat)) }

/-- `ENCA` on a valid descriptor: `RESULT` is the old `RESULT[7:0]` OR the encoding, its high byte 0 (R125). -/
def Obligations.EncaOrsValIntoResult : Prop :=
  ∀ (s : State) (off width : Nat), 1 ≤ width → off + width ≤ 8 →
    ∃ r : Half, r.toNat = (s.result.toNat % 256) ||| (s.val.toNat % 2 ^ width * 2 ^ off) ∧
      exec (.enca off width) s =
        .next { s with
          result := r
          status := s.status.success false (decide (2 ^ width ≤ s.val.toNat)) }

/-- `HCK` on an image of at least 0x150 bytes whose bytes up to 0x14D the port can deliver: `RESULT` is the checksum,
whether or not it matches byte 0x14D; a match sets `CKOK`, a mismatch ends with error 4 (R133, R134, R135). -/
def Obligations.HckVerifiesHeaderChecksum : Prop :=
  ∀ s : State, 0x150 ≤ s.imgLen.toNat → 0x14E ≤ s.image.size →
    let total := ((List.range' 0x134 25).map (fun a => (memoryRead s.image.bytes a).toNat)).sum
    let c : Byte := s.params.hckInit - BitVec.ofNat 8 (total + 25)
    exec .hck s =
      .next { s with
        result := c.setWidth 16
        status :=
          if memoryRead s.image.bytes 0x14D = c then s.status.success true false
          else Status.failure 4 }

/-- `GCK` on an image of at least 0x150 bytes: `RESULT` is the big-endian value at 0x14E, and `CKOK` is 0 whatever the
bytes are (R53, R140, R141, R142). -/
def Obligations.GckReadsGlobalChecksum : Prop :=
  ∀ s : State, 0x150 ≤ s.imgLen.toNat → 0x150 ≤ s.image.size →
    ∃ r : Half,
      r.toNat = (memoryRead s.image.bytes 0x14E).toNat * 256 + (memoryRead s.image.bytes 0x14F).toNat ∧
      exec .gck s = .next { s with result := r, status := s.status.success false false }

/-- `LOGO` on an image of at least 0x150 bytes whose logo region the port can deliver: `CKOK` is set if every byte
equals its reference byte, and otherwise the command ends with error 3; `RESULT` is kept (R144). -/
def Obligations.LogoComparesLogoRegion : Prop :=
  ∀ s : State, 0x150 ≤ s.imgLen.toNat → 0x134 ≤ s.image.size →
    ((∀ (k : Nat) (hk : k < 48), memoryRead s.image.bytes (0x104 + k) = s.params.logoRef[k]) →
      exec .logo s = .next { s with status := s.status.success true false }) ∧
    (∀ (k : Nat) (hk : k < 48), memoryRead s.image.bytes (0x104 + k) ≠ s.params.logoRef[k] →
      exec .logo s = .next { s with status := Status.failure 3 })

/-- `MAGIC` on an image of at least 16 bytes whose first four the port can deliver: `CKOK` is set if they are 4E 45 53
1A, and otherwise the command ends with error 2; `RESULT` is kept (R150). The values of the first three bytes are
those R151 gives from general knowledge (PRESUMED, log 7). -/
def Obligations.MagicComparesFirstFourBytes : Prop :=
  ∀ s : State, 16 ≤ s.imgLen.toNat → 4 ≤ s.image.size →
    exec .magic s =
      .next { s with
        status :=
          if memoryRead s.image.bytes 0 = 0x4E ∧ memoryRead s.image.bytes 1 = 0x45 ∧
            memoryRead s.image.bytes 2 = 0x53 ∧ memoryRead s.image.bytes 3 = 0x1A
          then s.status.success true false
          else Status.failure 2 }

/-! ### Each command as its rule gives it, from the word written to `CMD` -/

/-- R110, whole: a word with `OP` = 0x1 written to `CMD`. -/
def Obligations.ExtWord : Prop :=
  ∀ (w : Word) (s : State), w.extractLsb' 28 4 = 0x1 →
    let off := (w.extractLsb' 25 3).toNat
    let width := (w.extractLsb' 22 3).toNat + 1
    commandStep w s =
      if w.extractLsb' 0 22 ≠ 0 then .next { s with status := Status.failure 7 }
      else if 8 < off + width then .next { s with status := Status.failure 5 }
      else
        .next { s with
          result := ((s.src >>> off) &&& BitVec.ofNat 8 (2 ^ width - 1)).setWidth 16
          status := s.status.success false false }

/-- R115, whole: a word with `OP` = 0x2 written to `CMD`. That the whole command is refused where the image port has
no byte at the address is the model's choice, its reading of R242 (log 10). -/
def Obligations.ExtmWord : Prop :=
  ∀ (w : Word) (s : State), w.extractLsb' 28 4 = 0x2 →
    let off := (w.extractLsb' 25 3).toNat
    let width := (w.extractLsb' 22 3).toNat + 1
    let addr := (w.extractLsb' 0 16).toNat
    commandStep w s =
      if w.extractLsb' 16 6 ≠ 0 then .next { s with status := Status.failure 7 }
      else if 8 < off + width then .next { s with status := Status.failure 5 }
      else if s.imgLen.toNat ≤ addr then .next { s with status := Status.failure 6 }
      else if s.image.size ≤ addr then .refused .noImageByte
      else
        .next { s with
          result :=
            ((memoryRead s.image.bytes addr >>> off) &&& BitVec.ofNat 8 (2 ^ width - 1)).setWidth 16
          status := s.status.success false false }

/-- R120, whole: a word with `OP` = 0x3 written to `CMD`. -/
def Obligations.EncWord : Prop :=
  ∀ (w : Word) (s : State), w.extractLsb' 28 4 = 0x3 →
    let off := (w.extractLsb' 25 3).toNat
    let width := (w.extractLsb' 22 3).toNat + 1
    commandStep w s =
      if w.extractLsb' 0 22 ≠ 0 then .next { s with status := Status.failure 7 }
      else if 8 < off + width then .next { s with status := Status.failure 5 }
      else
        .next { s with
          result := ((s.val &&& BitVec.ofNat 8 (2 ^ width - 1)) <<< off).setWidth 16
          status := s.status.success false (s.val >>> width != 0) }

/-- R125, whole: a word with `OP` = 0x4 written to `CMD`; a second issue of it leaves the same `RESULT`. -/
def Obligations.EncaWord : Prop :=
  ∀ (w : Word) (s : State), w.extractLsb' 28 4 = 0x4 →
    let off := (w.extractLsb' 25 3).toNat
    let width := (w.extractLsb' 22 3).toNat + 1
    commandStep w s =
      (if w.extractLsb' 0 22 ≠ 0 then .next { s with status := Status.failure 7 }
      else if 8 < off + width then .next { s with status := Status.failure 5 }
      else
        .next { s with
          result :=
            (s.result.extractLsb' 0 8 |||
              ((s.val &&& BitVec.ofNat 8 (2 ^ width - 1)) <<< off)).setWidth 16
          status := s.status.success false (s.val >>> width != 0) }) ∧
    (∀ t u, commandStep w s = .next t → commandStep w t = .next u → u.result = t.result)

/-- R130 and R134, whole: a word with `OP` = 0x5 written to `CMD`. That the whole command is refused where the image
port cannot deliver byte 0x14D, with no `RESULT` even where it has the whole region, is the model's choice, its reading
of R242 (log 10). -/
def Obligations.HckWord : Prop :=
  ∀ (w : Word) (s : State), w.extractLsb' 28 4 = 0x5 →
    let c : Byte :=
      (List.range' 0x134 25).foldl (fun r a => r - memoryRead s.image.bytes a - 1) s.params.hckInit
    commandStep w s =
      if w.extractLsb' 0 28 ≠ 0 then .next { s with status := Status.failure 7 }
      else if s.imgLen.toNat < 0x150 then .next { s with status := Status.failure 1 }
      else if s.image.size ≤ 0x14D then .refused .noImageByte
      else if c ≠ memoryRead s.image.bytes 0x14D then
        .next { s with result := c.setWidth 16, status := Status.failure 4 }
      else .next { s with result := c.setWidth 16, status := s.status.success true false }

/-- R140 and R141, whole: a word with `OP` = 0x6 written to `CMD`. That the whole command is refused where the image
port cannot deliver byte 0x14F is the model's choice, its reading of R242 (log 10). -/
def Obligations.GckWord : Prop :=
  ∀ (w : Word) (s : State), w.extractLsb' 28 4 = 0x6 →
    commandStep w s =
      if w.extractLsb' 0 28 ≠ 0 then .next { s with status := Status.failure 7 }
      else if s.imgLen.toNat < 0x150 then .next { s with status := Status.failure 1 }
      else if s.image.size ≤ 0x14F then .refused .noImageByte
      else
        .next { s with
          result := memoryRead s.image.bytes 0x14E ++ memoryRead s.image.bytes 0x14F
          status := s.status.success false false }

/-- R144, whole: a word with `OP` = 0x7 written to `CMD`. That the whole command is refused where the image port
cannot deliver the logo region is the model's choice, its reading of R242 (log 10). -/
def Obligations.LogoWord : Prop :=
  ∀ (w : Word) (s : State), w.extractLsb' 28 4 = 0x7 →
    let d : Byte :=
      (List.finRange 48).foldl
        (fun d k => d ||| (memoryRead s.image.bytes (0x104 + k.val) ^^^ s.params.logoRef[k])) 0
    commandStep w s =
      if w.extractLsb' 0 28 ≠ 0 then .next { s with status := Status.failure 7 }
      else if s.imgLen.toNat < 0x150 then .next { s with status := Status.failure 1 }
      else if s.image.size < 0x134 then .refused .noImageByte
      else if d ≠ 0 then .next { s with status := Status.failure 3 }
      else .next { s with status := s.status.success true false }

/-- R150, whole, for the constant `NES_MAGIC`: a word with `OP` = 0x8 written to `CMD`. That the whole command is
refused where the image port cannot deliver four bytes is the model's choice, its reading of R242 (log 10). -/
def Obligations.MagicWord : Prop :=
  ∀ (w : Word) (s : State), w.extractLsb' 28 4 = 0x8 →
    let d : Byte :=
      (List.range 4).foldl
        (fun d i => d ||| (memoryRead s.image.bytes i ^^^ Config.nesMagic.getD i 0)) 0
    commandStep w s =
      if w.extractLsb' 0 28 ≠ 0 then .next { s with status := Status.failure 7 }
      else if s.imgLen.toNat < 16 then .next { s with status := Status.failure 1 }
      else if s.image.size < 4 then .refused .noImageByte
      else if d ≠ 0 then .next { s with status := Status.failure 2 }
      else .next { s with status := s.status.success true false }

/-! ### Errors (60_exceptions.md) -/

/-- R101: a descriptor is valid iff `offset + width ≤ 8`, 36 of the 64 encodable ones are, and a format-B command
with an invalid one ends with `DescriptorError` (5) and touches nothing but `STATUS`, whatever `IMG_LEN` and the
image are. -/
def Obligations.InvalidDescriptorEndsWithDescriptorError : Prop :=
  (∀ off width : Nat, descriptorValid off width = true ↔ off + width ≤ 8) ∧
  (((List.range 8).flatMap
    (fun off => (List.range' 1 8).filter (fun width => descriptorValid off width))).length = 36) ∧
  (∀ (s : State) (off width addr : Nat), 8 < off + width →
    let e : Out := .next { s with status := Status.failure 5 }
    exec (.ext off width) s = e ∧ exec (.extm off width addr) s = e ∧
      exec (.enc off width) s = e ∧ exec (.enca off width) s = e)

/-- R208: the first error in the order of the rule is the one reported: an illegal word before everything, then the
descriptor, then the length, and only then a comparison, of which each command has at most one. -/
def Obligations.ErrorPriority : Prop :=
  ∀ (w : Word) (s : State),
    (∀ why, decode w = .illegal why →
      commandStep w s = .next { s with status := Status.failure 7 }) ∧
    (∀ i, decode w = .command i → descriptorFits i = false →
      commandStep w s = .next { s with status := Status.failure 5 }) ∧
    (∀ i, decode w = .command i → descriptorFits i = true → s.imgLen.toNat < lengthNeeded i →
      commandStep w s = .next { s with status := Status.failure (lengthErrorCode i) }) ∧
    (∀ i t, decode w = .command i → descriptorFits i = true → lengthNeeded i ≤ s.imgLen.toNat →
      commandStep w s = .next t →
        t.status.err = 0 ∨ (i = .magic ∧ t.status.err = 2) ∨ (i = .logo ∧ t.status.err = 3) ∨
          (i = .hck ∧ t.status.err = 4))

/-- R200: each error code is left by exactly the commands and causes of its row, and no code above 7 by any. -/
def Obligations.ErrorCodesHaveTheirCauses : Prop :=
  ∀ (w : Word) (s t : State), commandStep w s = .next t →
    (t.status.err = 1 ↔
      ((decode w = .command .hck ∨ decode w = .command .gck ∨ decode w = .command .logo) ∧
        s.imgLen.toNat < 0x150) ∨
      (decode w = .command .magic ∧ s.imgLen.toNat < 16)) ∧
    (t.status.err = 2 ↔
      decode w = .command .magic ∧ 16 ≤ s.imgLen.toNat ∧
        imageBytes s.image 0 4 ≠ some Config.nesMagic) ∧
    (t.status.err = 3 ↔
      decode w = .command .logo ∧ 0x150 ≤ s.imgLen.toNat ∧
        imageBytes s.image 0x104 48 ≠ some s.params.logoRef.toList) ∧
    (t.status.err = 4 ↔
      decode w = .command .hck ∧ 0x150 ≤ s.imgLen.toNat ∧
        (imageBytes s.image 0x134 25).map (headerSum s.params.hckInit) ≠ imageByte s.image 0x14D) ∧
    (t.status.err = 5 ↔ ∃ i, decode w = .command i ∧ descriptorFits i = false) ∧
    (t.status.err = 6 ↔
      ∃ off width addr, decode w = .command (.extm off width addr) ∧ off + width ≤ 8 ∧
        s.imgLen.toNat ≤ addr) ∧
    (t.status.err = 7 ↔ ∃ why, decode w = .illegal why) ∧
    t.status.err ≤ 7

/-- R204: what an error writes, for every word: `ERR` its code, `CKOK` and `TRUNC` 0, `ERRSEEN` 1, `RESULT` kept but
for `HCK` with `InvalidHeaderChecksum`; and no command, erring or not, changes `SRC`, `VAL`, `IMG_LEN`. -/
def Obligations.WhatAnErrorWrites : Prop :=
  ∀ (w : Word) (s t : State), commandStep w s = .next t →
    (t.src = s.src ∧ t.val = s.val ∧ t.imgLen = s.imgLen) ∧
    (t.status.err ≠ 0 →
      t.status = Status.failure t.status.err ∧
      (t.result = s.result ∨ (decode w = .command .hck ∧ t.status.err = 4)))

/-- R135: after `InvalidHeaderChecksum`, `RESULT` holds the computed checksum; after `HeaderTooShort` it is unchanged;
and `HCK` is the only command that changes `RESULT` and ends with an error. -/
def Obligations.HckLeavesComputedChecksum : Prop :=
  (∀ s t : State, exec .hck s = .next t → t.status.err = 4 →
    ∃ region, imageBytes s.image 0x134 25 = some region ∧
      t.result = (headerSum s.params.hckInit region).setWidth 16) ∧
  (∀ s t : State, exec .hck s = .next t → t.status.err = 1 → t.result = s.result) ∧
  (∀ (w : Word) (s t : State), commandStep w s = .next t → t.status.err ≠ 0 →
    t.result ≠ s.result → w = 0x50000000 ∧ t.status.err = 4)

/-- `CKOK` after a command is 1 exactly when the command is `HCK`, `LOGO` or `MAGIC` and it ended without error, so
its comparison matched (R31). -/
def Obligations.CkokOnlyAfterMatch : Prop :=
  ∀ (w : Word) (s t : State), commandStep w s = .next t →
    (t.status.ckok = true ↔
      (decode w = .command .hck ∨ decode w = .command .logo ∨ decode w = .command .magic) ∧
        t.status.err = 0)

/-- `TRUNC` after a command is 1 exactly when the command is `ENC` or `ENCA`, it ended without error and `VAL` has a
set bit outside the field's width (R32). -/
def Obligations.TruncOnlyAfterLoss : Prop :=
  ∀ (w : Word) (s t : State), commandStep w s = .next t →
    (t.status.trunc = true ↔
      ∃ off width, (decode w = .command (.enc off width) ∨ decode w = .command (.enca off width)) ∧
        off + width ≤ 8 ∧ s.val >>> width ≠ 0)

/-- `ERRSEEN` is sticky: a command that ends with an error sets it, one that succeeds leaves it, and no event clears
it but reset and a host write to `STATUS` with bit 6 set (R33). -/
def Obligations.ErrSeenIsSticky : Prop :=
  (∀ (w : Word) (s t : State), commandStep w s = .next t →
    t.status.errSeen = (s.status.errSeen || t.status.err != 0)) ∧
  (∀ (s t : State) (e : HostEvent) (rest : List HostEvent), s.pending = e :: rest →
    step s = .next t → s.status.errSeen = true → t.status.errSeen = false →
      e = .assertReset ∨ e = .releaseReset ∨
        ∃ data : Word, e = .write .word (s.params.regBase + 0x10) data ∧ data.getLsbD 6 = true)

/-! ### Whole-machine rules -/

/-- Every command ends, where the image port does not fall short of `IMG_LEN` (R242): no command waits or stops; and
none reads more than 48 bytes (R92). -/
def Obligations.EveryCommandEnds : Prop :=
  (∀ (i : Instr) (s : State), LengthDuty s → ∃ t, exec i s = .next t) ∧
  (∀ (w : Word) (s : State), LengthDuty s → ∃ t, commandStep w s = .next t) ∧
  (∀ i : Instr, (commandReads i).length ≤ 48)

/-- A command is refused exactly when its checks pass and one of the bytes it reads lies at or above what the image
port can deliver; the byte then lies below `IMG_LEN`, so the host has broken the duty of R242 (R51, R52, U9). That the
whole command is refused, with no next state, is the model's choice (log 10). -/
def Obligations.RefusedExactlyForMissingByte : Prop :=
  (∀ (i : Instr) (s : State), (∃ r, exec i s = .refused r) ↔
    descriptorFits i = true ∧ lengthNeeded i ≤ s.imgLen.toNat ∧
      ∃ a ∈ commandReads i, s.image.size ≤ a) ∧
  (∀ (i : Instr) (s : State) (r : Refusal), exec i s = .refused r → r = .noImageByte) ∧
  (∀ (i : Instr), ∀ a ∈ commandReads i, a < lengthNeeded i)

/-- R91: a command's writes are a function of the word, `SRC`, `VAL`, `RESULT`, `ERRSEEN`, `IMG_LEN`, the image bytes
it reads (R51) and the parameters, and of nothing else: two states that agree on these end the command with the same
`RESULT` and `STATUS`, and everything else as it was in each. R91 has no refusal: that both may be refused is the
model's choice (log 10). -/
def Obligations.WritesDependOnlyOnNamedInputs : Prop :=
  ∀ (w : Word) (s t : State),
    s.src = t.src → s.val = t.val → s.result = t.result → s.status.errSeen = t.status.errSeen →
    s.imgLen = t.imgLen → s.params = t.params →
    (∀ i, decode w = .command i →
      ∀ a ∈ commandReads i, imageByte s.image a = imageByte t.image a) →
    (commandStep w s = .refused .noImageByte ∧ commandStep w t = .refused .noImageByte) ∨
    (∃ (r : Half) (st : Status),
      commandStep w s = .next { s with result := r, status := st } ∧
      commandStep w t = .next { t with result := r, status := st })

/-- Issuing a command a second time leaves the same state as the first issue did: only `ENCA` reads `RESULT`, and it ORs
the same bits again (R76, R125), `STATUS` is written anew with the same values and `ERRSEEN` stays set once it is set
(R33, R90). R58 calls a write to `CMD` not idempotent in another sense: the command runs again, so an `ERRSEEN` that the
host cleared in between is set again. Here nothing comes between the two issues. -/
def Obligations.CommandIsIdempotent : Prop :=
  ∀ (w : Word) (s t : State), commandStep w s = .next t → commandStep w t = .next t

/-- Every step keeps the invariant: the image is canonical, `STATUS` is one that commands can leave (no reserved error
code, `CKOK` and `TRUNC` only after success and never together), and while reset is asserted every register holds its
reset value (R23, R31, R32, R200). The canonical form is the model's own (log 3). -/
def Obligations.StepKeepsInvariant : Prop :=
  ∀ s t : State, s.Inv → step s = .next t → t.Inv

/-- The invariant holds at reset. -/
def Obligations.ResetHasInvariant : Prop := State.reset.Inv

/-- R44: every register holds the value of the table after reset. -/
def Obligations.ResetValues : Prop :=
  State.reset.src = 0x00 ∧ State.reset.val = 0x00 ∧ State.reset.result = 0x0000 ∧
  State.reset.status.err = 0 ∧ State.reset.status.ckok = false ∧ State.reset.status.trunc = false ∧
  State.reset.status.errSeen = false ∧ State.reset.imgLen = 0x00000000

/-- While reset is asserted a read of the port returns 0 and a write, a command with it, has no effect; when reset is
released every register holds its value of R44 (R230). Malformed accesses are in `MalformedAccessIsRefused`. That image,
parameters, read data and the events still to come outlive reset (R42: they are not the block's state), and that a
release of reset that was not asserted changes nothing, are the model's reading (log 12). -/
def Obligations.ResetIgnoresHostAndClears : Prop :=
  (∀ (s : State) (rest : List HostEvent), s.inReset = true →
    (∀ n, n % 4 = 0 → n < 0x20 → s.pending = .read .word (s.params.regBase + n) :: rest →
      step s = .next { s with pending := rest, readData := 0 }) ∧
    (∀ n data, n % 4 = 0 → n < 0x20 → s.pending = .write .word (s.params.regBase + n) data :: rest →
      step s = .next { s with pending := rest }) ∧
    (s.pending = .releaseReset :: rest →
      step s =
        .next { s with
          pending := rest, inReset := false, src := 0, val := 0, result := 0, imgLen := 0
          status := { err := 0, ckok := false, trunc := false, errSeen := false } })) ∧
  (∀ (s : State) (rest : List HostEvent), s.inReset = false → s.pending = .releaseReset :: rest →
    step s = .next { s with pending := rest })

/-- Asserting reset puts every register in the state of R44 (R23). That it leaves image, parameters, read data and the
events still to come, which are not the block's state (R42), is the model's reading (log 12). -/
def Obligations.AssertingResetClearsRegisters : Prop :=
  ∀ (s : State) (rest : List HostEvent), s.pending = .assertReset :: rest →
    step s =
      .next { s with
        pending := rest, inReset := true, src := 0, val := 0, result := 0, imgLen := 0
        status := { err := 0, ckok := false, trunc := false, errSeen := false } }

/-- Who changes what, over every step. With no event pending nothing changes (R64, R218). Otherwise the step takes the
oldest event, and: `SRC`, `VAL` and `IMG_LEN` change only by a host write to them, `RESULT` and the `ERR`, `CKOK` and
`TRUNC` of `STATUS` only by a command, `ERRSEEN` by a command or a host write to `STATUS`, each of them also by reset;
the reset level only by the reset input, the image only by the platform, the read data only by a host read, the
parameters by nothing (R21 to R23, R25, R26, R28, R30 to R33, R35, R42, R60, R230). Three parts are the model's: the
list in which the events still to come stand (log 1), the read data as a field that only a host read changes (log 2),
and the reset level with what outlives reset (log 12). -/
def Obligations.OnlyNamedEventsChangeRegisters : Prop :=
  (∀ s : State, s.pending = [] → step s = .next s) ∧
  (∀ (s t : State) (e : HostEvent) (rest : List HostEvent), s.pending = e :: rest →
    step s = .next t →
    (t.src ≠ s.src →
      e = .assertReset ∨ e = .releaseReset ∨ ∃ d, e = .write .word (s.params.regBase + 0x04) d) ∧
    (t.val ≠ s.val →
      e = .assertReset ∨ e = .releaseReset ∨ ∃ d, e = .write .word (s.params.regBase + 0x08) d) ∧
    (t.imgLen ≠ s.imgLen →
      e = .assertReset ∨ e = .releaseReset ∨ ∃ d, e = .write .word (s.params.regBase + 0x14) d) ∧
    (t.result ≠ s.result →
      e = .assertReset ∨ e = .releaseReset ∨ ∃ d, e = .write .word (s.params.regBase + 0x00) d) ∧
    (t.status.err ≠ s.status.err ∨ t.status.ckok ≠ s.status.ckok ∨
        t.status.trunc ≠ s.status.trunc →
      e = .assertReset ∨ e = .releaseReset ∨ ∃ d, e = .write .word (s.params.regBase + 0x00) d) ∧
    (t.status.errSeen ≠ s.status.errSeen →
      e = .assertReset ∨ e = .releaseReset ∨
        (∃ d, e = .write .word (s.params.regBase + 0x00) d) ∨
        ∃ d : Word, e = .write .word (s.params.regBase + 0x10) d ∧ d.getLsbD 6 = true) ∧
    (t.inReset ≠ s.inReset → e = .assertReset ∨ e = .releaseReset) ∧
    (t.image ≠ s.image → ∃ size cells, e = .attachImage size cells) ∧
    (t.readData ≠ s.readData → ∃ addr, e = .read .word addr) ∧
    t.params = s.params ∧ t.pending = rest)

/-! ### The register port (10_state.md) -/

/-- A host read of each word of the register block: what it returns, and that it changes nothing but the data the host
gets (R24 to R37, R58). -/
def Obligations.PortReadsRegisters : Prop :=
  ∀ (s : State) (rest : List HostEvent) (n : Nat), s.inReset = false → n % 4 = 0 → n < 0x20 →
    s.pending = .read .word (s.params.regBase + n) :: rest →
    ∃ v : Word, step s = .next { s with pending := rest, readData := v } ∧
      (n = 0x00 → v = 0) ∧
      (n = 0x04 → v.toNat = s.src.toNat) ∧
      (n = 0x08 → v.toNat = s.val.toNat) ∧
      (n = 0x0C → v.toNat = s.result.toNat) ∧
      (n = 0x10 →
        v.toNat = s.status.err.toNat + 16 * s.status.ckok.toNat + 32 * s.status.trunc.toNat +
          64 * s.status.errSeen.toNat) ∧
      (n = 0x14 → v = s.imgLen) ∧
      (n = 0x18 → v = 0) ∧
      (n = 0x1C → v = 0)

/-- A host write to each word of the register block but `CMD`: what it stores, and that it stores nothing else (R24 to
R37, R58). -/
def Obligations.PortWritesRegisters : Prop :=
  ∀ (s : State) (rest : List HostEvent) (n : Nat) (d : Word),
    s.inReset = false → n % 4 = 0 → 0 < n → n < 0x20 →
    s.pending = .write .word (s.params.regBase + n) d :: rest →
    step s =
      .next { s with
        pending := rest
        src := if n = 0x04 then BitVec.ofNat 8 d.toNat else s.src
        val := if n = 0x08 then BitVec.ofNat 8 d.toNat else s.val
        imgLen := if n = 0x14 then d else s.imgLen
        status :=
          if n = 0x10 then { s.status with errSeen := s.status.errSeen && !d.getLsbD 6 }
          else s.status }

/-- R34: bits [31:7] of `STATUS` read as 0, and a host write to it depends on bit 6 alone. -/
def Obligations.StatusReservedBits : Prop :=
  (∀ (t : Status) (k : Nat), 7 ≤ k → (statusWord t).getLsbD k = false) ∧
  (∀ (t : Status) (d d' : Word), d.getLsbD 6 = d'.getLsbD 6 →
    statusHostWrite t d = statusHostWrite t d') ∧
  (∀ (t : Status) (d : Word),
    (statusHostWrite t d).err = t.err ∧ (statusHostWrite t d).ckok = t.ckok ∧
      (statusHostWrite t d).trunc = t.trunc)

/-- A read that follows a write returns the value written, for the three registers the host writes (R60, R244). -/
def Obligations.ReadReturnsLastWrite : Prop :=
  ∀ (s : State) (rest : List HostEvent) (n : Nat) (d : Word), s.inReset = false →
    (n = 0x04 ∨ n = 0x08 ∨ n = 0x14) →
    s.pending =
      .write .word (s.params.regBase + n) d :: .read .word (s.params.regBase + n) :: rest →
    ∃ t, Sys2Proof.core.run 2 s = .next t ∧ t.pending = rest ∧
      t.readData.toNat = if n = 0x14 then d.toNat else d.toNat % 256

/-- An access that is not an aligned 32-bit access to one of the eight offsets is refused, and one that is, is never
refused as malformed (R38). That this is so below `REG_BASE` and while reset is asserted too is the model's choice
(log 9). -/
def Obligations.MalformedAccessIsRefused : Prop :=
  ∀ (s : State) (rest : List HostEvent) (size : AccessSize) (addr : Nat) (e : HostEvent),
    (e = .read size addr ∨ ∃ d, e = .write size addr d) → s.pending = e :: rest →
    (step s = .refused .badAccess ↔
      ¬(size = .word ∧ ∃ n, n % 4 = 0 ∧ n < 0x20 ∧ addr = s.params.regBase + n))

/-- An access by a second host is refused (R216, U10). -/
def Obligations.SecondHostIsRefused : Prop :=
  ∀ (s : State) (rest : List HostEvent), s.pending = .secondHost :: rest →
    step s = .refused .secondHost

/-! ### The step -/

/-- A host write to `CMD` of any word, with reset released, is a step that runs the command step of that word on the
state from which the access has been taken: exactly its command if it decodes to one, and `IllegalCommand` if it is
illegal (R36, R78, R90). -/
def Obligations.StepRunsDecodedCommand : Prop :=
  ∀ (s : State) (rest : List HostEvent) (w : Word), s.inReset = false →
    s.pending = .write .word (s.params.regBase + 0x00) w :: rest →
    step s = commandStep w { s with pending := rest } ∧
    (∀ i, decode w = .command i → step s = exec i { s with pending := rest }) ∧
    (∀ why, decode w = .illegal why →
      step s = .next { s with pending := rest, status := Status.failure 7 })

/-- The word placed by `withFetchWord`, legal or not, is the one the next step runs, on the state it was placed in with
reset released (R36, R90). How a word comes to the block is the model's (log 1). -/
def Obligations.PlacedWordRunsNext : Prop :=
  ∀ (s : State) (w : Word),
    step (s.withFetchWord 32 w.toNat) = commandStep w { s with inReset := false } ∧
    (∀ i, decodeTableWord 32 w.toNat = some i →
      step (s.withFetchWord 32 w.toNat) = exec i { s with inReset := false }) ∧
    (decodeTableWord 32 w.toNat = none →
      step (s.withFetchWord 32 w.toNat) =
        .next { s with inReset := false, status := Status.failure 7 })

/-- A run whose host does its duty in every step (R38, R242, R243) never stops. -/
def Obligations.SafeRunNeverStops : Prop :=
  ∀ (n : Nat) (s : State), SafeRun n s → ∃ t, Sys2Proof.core.run n s = .next t

/-! ### The checks' arithmetic (41_checksum_validator.md) -/

/-- R132, which the spec derives: the update is equally `r + (b ^ 0xFF)`, so `HeaderSum` is the starting value plus
the 8-bit sum of the bytes' complements. -/
def Obligations.ChecksumComplementForm : Prop :=
  (∀ r b : Byte, checksumUpdate r b = r + (b ^^^ 0xFF)) ∧
  (∀ (init : Byte) (bs : List Byte), headerSum init bs = init + (bs.map (fun b => b ^^^ 0xFF)).sum)

/-- R133, which the spec derives: `HeaderSum` = (`HCK_INIT` - S - 25) mod 256 over 25 bytes with plain sum S, (0xE7 -
S) mod 256 from 0, and the order of the bytes does not matter. -/
def Obligations.ChecksumClosedForm : Prop :=
  (∀ (init : Byte) (bs : List Byte), bs.length = 25 →
    headerSum init bs = BitVec.ofInt 8 ((init.toNat : Int) - (bs.map BitVec.toNat).sum - 25)) ∧
  (∀ bs : List Byte, bs.length = 25 →
    headerSum 0 bs = BitVec.ofInt 8 (0xE7 - (bs.map BitVec.toNat).sum)) ∧
  (∀ (init : Byte) (bs bs' : List Byte), bs.Perm bs' → headerSum init bs = headerSum init bs')

/-- R136, which the spec derives: over an image that passes `HCK`, an image that differs in exactly one byte of the
region, byte 0x14D kept, fails with error 4; one whose region has the same sum mod 256 passes. -/
def Obligations.ChecksumDetectsOneByteChange : Prop :=
  ∀ (s t : State) (g : Image), exec .hck s = .next t → t.status.ckok = true →
    g.size = s.image.size → memoryRead g.bytes 0x14D = memoryRead s.image.bytes 0x14D →
    (∀ a, 0x134 ≤ a → a < 0x14D → memoryRead g.bytes a ≠ memoryRead s.image.bytes a →
      (∀ x, 0x134 ≤ x → x < 0x14D → x ≠ a →
        memoryRead g.bytes x = memoryRead s.image.bytes x) →
      ∃ u, exec .hck { s with image := g } = .next u ∧ u.status.err = 4) ∧
    ((((List.range' 0x134 25).map (fun a => (memoryRead g.bytes a).toNat)).sum % 256 =
        ((List.range' 0x134 25).map (fun a => (memoryRead s.image.bytes a).toNat)).sum % 256) →
      ∃ u, exec .hck { s with image := g } = .next u ∧ u.status.err = 0 ∧ u.status.ckok = true)

/-- R146, which the spec derives: the accumulated exclusive-or is 0 iff every byte equals its reference byte, and
`LOGO` on two images that both fail the comparison ends the same way, so which byte differs is not observable. -/
def Obligations.ComparisonReportsOnlyVerdict : Prop :=
  (∀ bs ref : List Byte, bs.length = ref.length → (diffBytes bs ref = 0 ↔ bs = ref)) ∧
  (∀ (s t t' : State) (g g' : Image),
    exec .logo { s with image := g } = .next t → exec .logo { s with image := g' } = .next t' →
    t.status.ckok = false → t'.status.ckok = false →
      t.status = t'.status ∧ t.result = t'.result)

/-! ### The image and the catalogue -/

/-- An image the platform attaches is canonical and reads as listed: the last cell listed for an address below the
size gives its byte, an address not listed reads 0x00, and there is no byte at or above the size (R22, R50; the form is
the model's, log 3). A step whose next event is that attachment attaches exactly that image. That `IMG_LEN` and every
register are kept is the model's reading (log 19). -/
def Obligations.AttachedImageReadsAsListed : Prop :=
  ∀ (s : State) (n : Nat) (cells : List Host.Cell),
    (attachTo s n cells).image.wf ∧
    (∀ a, a < n →
      imageByte (attachTo s n cells).image a =
        some (((cells.reverse.find? (fun c => c.1 == a)).map (fun c => c.2)).getD 0x00)) ∧
    (∀ a, n ≤ a → imageByte (attachTo s n cells).image a = none) ∧
    { attachTo s n cells with image := s.image } = s ∧
    (∀ rest, s.pending = .attachImage n cells :: rest →
      step s = .next (attachTo { s with pending := rest } n cells))

/-- R172: after `EXTM 2, 2, 7`, `RESULT` is bits 3:2 of byte 7, whatever every other bit and byte is, so the image is
NES 2.0 iff those bits are binary 10. -/
def Obligations.FormatSelectorDecidesNes20 : Prop :=
  ∀ s : State, 7 < s.imgLen.toNat → 7 < s.image.size →
    let b := memoryRead s.image.bytes 7
    ∃ t, exec (fieldCommand .formatSelector) s = .next t ∧ t.status.err = 0 ∧
      t.result.toNat = 2 * (b.getLsbD 3).toNat + (b.getLsbD 2).toNat ∧
      (formatOfSelector t.result = .nes20 ↔ b.getLsbD 3 = true ∧ b.getLsbD 2 = false) ∧
      (formatOfSelector t.result = .iNES ↔ ¬(b.getLsbD 3 = true ∧ b.getLsbD 2 = false))

/-- The words that 42_field_catalogue.md gives for its fields are the encodings of the catalogue's commands. The
positions of some fields are the spec's own reading (D27, log 16). -/
def Obligations.CatalogueWords : Prop :=
  [HeaderField.gbcSupport, .sgbSupport, .mirroring, .battery, .trainer, .altNametable, .mapperLow,
    .consoleType, .formatSelector, .mapperHigh, .prgSizeLsb, .chrSizeLsb, .submapper, .byte8High,
    .prgRamUnits, .prgSizeMsb, .chrSizeMsb, .prgRamShift, .prgNvramShift, .chrRamShift,
    .chrNvramShift, .timingMode, .ppuType, .hardwareType, .extendedConsole, .byte13].map
      (fun f => encode (fieldCommand f)) =
  ([0x2E000143, 0x2E000146, 0x20000006, 0x22000006, 0x24000006, 0x26000006, 0x28C00006,
    0x20400007, 0x24400007, 0x28C00007, 0x21C00004, 0x21C00005, 0x20C00008, 0x28C00008,
    0x21C00008, 0x20C00009, 0x28C00009, 0x20C0000A, 0x28C0000A, 0x20C0000B,
    0x28C0000B, 0x2040000C, 0x20C0000D, 0x28C0000D, 0x20C0000D, 0x21C0000D] : List Word)
end

