-- ==== Sys2Proof/Laws/Decode.lean ====
section
/-! SUPPORT. The small lemmas of the encoding: the fields of a format-B word, and which words a table row takes. -/

namespace Sys2Proof

/-- `OP` of a format-B word (R71). -/
@[simp] theorem fieldOp_formatB (op : BitVec 4) (off width addr : Nat) :
    fieldOp (formatB op off width addr) = op := by
  apply BitVec.eq_of_getLsbD_eq
  intro i hi
  simp only [fieldOp, formatB, BitVec.getLsbD_extractLsb', BitVec.getLsbD_append]
  have h1 : ¬ 28 + i < 16 := by omega
  have h2 : ¬ 28 + i - 16 < 6 := by omega
  have h3 : ¬ 28 + i - 16 - 6 < 3 := by omega
  have h4 : ¬ 28 + i - 16 - 6 - 3 < 3 := by omega
  have h5 : 28 + i - 16 - 6 - 3 - 3 = i := by omega
  simp [hi, h1, h2, h3, h4, h5]

/-- `OFF` of a format-B word (R71). -/
theorem fieldOff_formatB (op : BitVec 4) (off width addr : Nat) :
    fieldOff (formatB op off width addr) = off % 8 := by
  have h : (formatB op off width addr).extractLsb' 25 3 = BitVec.ofNat 3 off := by
    apply BitVec.eq_of_getLsbD_eq
    intro i hi
    simp only [formatB, BitVec.getLsbD_extractLsb', BitVec.getLsbD_append]
    have h1 : ¬ 25 + i < 16 := by omega
    have h2 : ¬ 25 + i - 16 < 6 := by omega
    have h3 : ¬ 25 + i - 16 - 6 < 3 := by omega
    have h5 : 25 + i - 16 - 6 - 3 = i := by omega
    simp [hi, h1, h2, h3, h5]
  rw [fieldOff, h, BitVec.toNat_ofNat]

/-- The width of a format-B word is `WM1` plus one (R71, R73). -/
theorem fieldWidth_formatB (op : BitVec 4) (off width addr : Nat) :
    fieldWidth (formatB op off width addr) = (width - 1) % 8 + 1 := by
  have h : (formatB op off width addr).extractLsb' 22 3 = BitVec.ofNat 3 (width - 1) := by
    apply BitVec.eq_of_getLsbD_eq
    intro i hi
    simp only [formatB, BitVec.getLsbD_extractLsb', BitVec.getLsbD_append]
    have h1 : ¬ 22 + i < 16 := by omega
    have h2 : ¬ 22 + i - 16 < 6 := by omega
    have h5 : 22 + i - 16 - 6 = i := by omega
    simp [hi, h1, h2, h5]
  rw [fieldWidth, h, BitVec.toNat_ofNat]

/-- `ADDR` of a format-B word (R71, R74). -/
theorem fieldAddr_formatB (op : BitVec 4) (off width addr : Nat) :
    fieldAddr (formatB op off width addr) = addr % 2 ^ 16 := by
  have h : (formatB op off width addr).extractLsb' 0 16 = BitVec.ofNat 16 addr := by
    apply BitVec.eq_of_getLsbD_eq
    intro i hi
    simp only [formatB, BitVec.getLsbD_extractLsb', BitVec.getLsbD_append]
    simp [hi]
  rw [fieldAddr, h, BitVec.toNat_ofNat]

/-- The fields a word shows are in the ranges of R73 and R74. -/
theorem fieldOff_le (w : Word) : fieldOff w ≤ 7 := by
  have := (w.extractLsb' 25 3).isLt
  unfold fieldOff
  omega

theorem fieldWidth_pos (w : Word) : 1 ≤ fieldWidth w := by
  unfold fieldWidth
  omega

theorem fieldWidth_le (w : Word) : fieldWidth w ≤ 8 := by
  have := (w.extractLsb' 22 3).isLt
  unfold fieldWidth
  omega

theorem fieldAddr_lt (w : Word) : fieldAddr w < 2 ^ 16 := (w.extractLsb' 0 16).isLt

/-- A decoded command comes from a row of the table that the word matches (R77). -/
theorem decode_eq_command {w : Word} {i : Instr} (h : decode w = .command i) :
    ∃ r ∈ opcodeTable, rowMatches w r = true ∧ i = buildCommand r.op w := by
  unfold decode at h
  split at h
  · rename_i r hr
    exact ⟨r, List.mem_of_find?_eq_some hr, List.find?_some hr, (Decoded.command.inj h).symm⟩
  · simp at h

/-- A word that no row matches is illegal (R77). -/
theorem decode_eq_illegal {w : Word} {why : Illegal} (h : decode w = .illegal why) :
    (∀ r ∈ opcodeTable, rowMatches w r = false) ∧ why = illegalReason w := by
  unfold decode at h
  split at h
  · simp at h
  · rename_i hr
    exact ⟨fun r hr' => by simpa using List.find?_eq_none.1 hr r hr',
      (Decoded.illegal.inj h).symm⟩

/-- The command that a row builds is well-formed (R73, R74). -/
theorem buildCommand_wellFormed (op : Opcode) (w : Word) : (buildCommand op w).wellFormed = true := by
  have := fieldOff_le w
  have := fieldWidth_pos w
  have := fieldWidth_le w
  have := fieldAddr_lt w
  cases op <;> simp_all [buildCommand, Instr.wellFormed, descriptorEncodable, Config.addrWidth]

/-! ### Which words a row takes -/

/-- A word under a mask that keeps `OP`, drops `OFF` and `WM1`, and keeps some of bits [21:0]. -/
theorem and_rowMask (w : Word) (low : BitVec 22) :
    w &&& ((0xF : BitVec 4) ++ (0 : BitVec 6) ++ low : Word) =
      fieldOp w ++ (0 : BitVec 6) ++ (w.extractLsb' 0 22 &&& low) := by
  apply BitVec.eq_of_getLsbD_eq
  intro i hi
  simp only [fieldOp, BitVec.getLsbD_and, BitVec.getLsbD_append, BitVec.getLsbD_extractLsb']
  by_cases h1 : i < 22
  · simp [h1]
  · by_cases h2 : i - 22 < 6
    · simp [h1, h2]
    · have h3 : i - 22 - 6 < 4 := by omega
      have h4 : 28 + (i - 22 - 6) = i := by omega
      have h5 : (15#4 : BitVec 4).getLsbD (i - 22 - 6) = true := by
        interval_cases h : i - 22 - 6 <;> rfl
      simp [h1, h2, h3, h4, h5]

/-- Words laid out as in `and_rowMask` are equal when their parts are. -/
theorem append_inj {a a' : BitVec 4} {b b' : BitVec 22}
    (h : (a ++ (0 : BitVec 6) ++ b : Word) = a' ++ (0 : BitVec 6) ++ b') : a = a' ∧ b = b' := by
  have high : ∀ (a : BitVec 4) (b : BitVec 22) (i : Nat), i < 4 →
      (a ++ (0 : BitVec 6) ++ b : Word).getLsbD (28 + i) = a.getLsbD i := by
    intro a b i hi
    have h1 : ¬ 28 + i < 22 := by omega
    have h2 : ¬ 28 + i - 22 < 6 := by omega
    have h3 : 28 + i - 22 - 6 = i := by omega
    rw [BitVec.getLsbD_append, if_neg h1, BitVec.getLsbD_append, if_neg h2, h3]
  have low : ∀ (a : BitVec 4) (b : BitVec 22) (i : Nat), i < 22 →
      (a ++ (0 : BitVec 6) ++ b : Word).getLsbD i = b.getLsbD i := by
    intro a b i hi
    rw [BitVec.getLsbD_append, if_pos hi]
  constructor <;> apply BitVec.eq_of_getLsbD_eq <;> intro i hi
  · rw [← high a b i hi, h, high a' b' i hi]
  · rw [← low a b i hi, h, low a' b' i hi]

/-- A format-B row takes the words with its `OP` and zeros where its mask reserves bits [21:0] (R75, R78). -/
theorem rowMatches_formatB_iff (w : Word) (o : Opcode) (op : BitVec 4) (low : BitVec 22) :
    rowMatches w ⟨o, op ++ (0 : BitVec 6) ++ (0 : BitVec 22), (0xF : BitVec 4) ++ (0 : BitVec 6) ++ low⟩ = true ↔
      fieldOp w = op ∧ w.extractLsb' 0 22 &&& low = 0 := by
  unfold rowMatches
  rw [beq_iff_eq, and_rowMask]
  exact ⟨append_inj, fun ⟨h1, h2⟩ => by rw [h1, h2]⟩

/-- A format-C row takes one word (R72, R75). -/
theorem rowMatches_formatC_iff (w : Word) (o : Opcode) (p : Word) :
    rowMatches w ⟨o, p, 0xFFFFFFFF⟩ = true ↔ w = p := by
  unfold rowMatches
  rw [beq_iff_eq, show (0xFFFFFFFF : Word) = BitVec.allOnes 32 from rfl, BitVec.and_allOnes]

/-- The rows of the table have different `OP` values, so a word matches at most one (R77). -/
theorem find?_of_rowMatches {w : Word} {r : OpcodeRow} (hr : r ∈ opcodeTable)
    (h : rowMatches w r = true) : opcodeTable.find? (rowMatches w) = some r := by
  have op_of : ∀ r ∈ opcodeTable, rowMatches w r = true →
      w &&& 0xF0000000 = r.pattern &&& 0xF0000000 := by
    intro r hr h
    have hm : r.mask &&& 0xF0000000 = 0xF0000000 := by clear h; revert r; decide
    rw [← beq_iff_eq.1 h, BitVec.and_assoc, hm]
  cases hf : opcodeTable.find? (rowMatches w) with
  | none => exact absurd h (by simpa using List.find?_eq_none.1 hf r hr)
  | some r' =>
    have hr' := List.mem_of_find?_eq_some hf
    have e : r.pattern &&& 0xF0000000 = r'.pattern &&& 0xF0000000 := by
      rw [← op_of r hr h, ← op_of r' hr' (List.find?_some hf)]
    clear hf h op_of
    revert r r'
    decide

/-- A word that a row takes decodes to that row's command (R77). -/
theorem decode_of_rowMatches {w : Word} {r : OpcodeRow} (hr : r ∈ opcodeTable)
    (h : rowMatches w r = true) : decode w = .command (buildCommand r.op w) := by
  simp [decode, find?_of_rowMatches hr h]

/-- A word that no row takes is illegal (R77). -/
theorem decode_of_no_row {w : Word} (h : ∀ r ∈ opcodeTable, rowMatches w r = false) :
    decode w = .illegal (illegalReason w) := by
  have : opcodeTable.find? (rowMatches w) = none :=
    List.find?_eq_none.2 fun r hr => by simp [h r hr]
  simp [decode, this]

end Sys2Proof
end

