-- ==== Sys2Proof/Laws/State.lean ====
section
/-! SUPPORT. One lemma per field per update of the state, true by rfl, so that no proof unfolds a record update. -/

namespace Sys2Proof.Machine

@[simp] theorem setResult_src (s : State) (v : Half) :
    (s.setResult v).src = s.src := rfl

@[simp] theorem setResult_val (s : State) (v : Half) :
    (s.setResult v).val = s.val := rfl

@[simp] theorem setResult_result (s : State) (v : Half) :
    (s.setResult v).result = v := rfl

@[simp] theorem setResult_status (s : State) (v : Half) :
    (s.setResult v).status = s.status := rfl

@[simp] theorem setResult_imgLen (s : State) (v : Half) :
    (s.setResult v).imgLen = s.imgLen := rfl

@[simp] theorem setResult_inReset (s : State) (v : Half) :
    (s.setResult v).inReset = s.inReset := rfl

@[simp] theorem setResult_image (s : State) (v : Half) :
    (s.setResult v).image = s.image := rfl

@[simp] theorem setResult_pending (s : State) (v : Half) :
    (s.setResult v).pending = s.pending := rfl

@[simp] theorem setResult_readData (s : State) (v : Half) :
    (s.setResult v).readData = s.readData := rfl

@[simp] theorem setResult_params (s : State) (v : Half) :
    (s.setResult v).params = s.params := rfl

@[simp] theorem endCommand_src (e : BitVec 4) (c t : Bool) (s : State) :
    (endCommand e c t s).src = s.src := rfl

@[simp] theorem endCommand_val (e : BitVec 4) (c t : Bool) (s : State) :
    (endCommand e c t s).val = s.val := rfl

@[simp] theorem endCommand_result (e : BitVec 4) (c t : Bool) (s : State) :
    (endCommand e c t s).result = s.result := rfl

@[simp] theorem endCommand_status (e : BitVec 4) (c t : Bool) (s : State) :
    (endCommand e c t s).status = statusAfter s.status e c t := rfl

@[simp] theorem endCommand_imgLen (e : BitVec 4) (c t : Bool) (s : State) :
    (endCommand e c t s).imgLen = s.imgLen := rfl

@[simp] theorem endCommand_inReset (e : BitVec 4) (c t : Bool) (s : State) :
    (endCommand e c t s).inReset = s.inReset := rfl

@[simp] theorem endCommand_image (e : BitVec 4) (c t : Bool) (s : State) :
    (endCommand e c t s).image = s.image := rfl

@[simp] theorem endCommand_pending (e : BitVec 4) (c t : Bool) (s : State) :
    (endCommand e c t s).pending = s.pending := rfl

@[simp] theorem endCommand_readData (e : BitVec 4) (c t : Bool) (s : State) :
    (endCommand e c t s).readData = s.readData := rfl

@[simp] theorem endCommand_params (e : BitVec 4) (c t : Bool) (s : State) :
    (endCommand e c t s).params = s.params := rfl

@[simp] theorem attachTo_src (s : State) (n : Nat) (cells : List Host.Cell) :
    (attachTo s n cells).src = s.src := rfl

@[simp] theorem attachTo_val (s : State) (n : Nat) (cells : List Host.Cell) :
    (attachTo s n cells).val = s.val := rfl

@[simp] theorem attachTo_result (s : State) (n : Nat) (cells : List Host.Cell) :
    (attachTo s n cells).result = s.result := rfl

@[simp] theorem attachTo_status (s : State) (n : Nat) (cells : List Host.Cell) :
    (attachTo s n cells).status = s.status := rfl

@[simp] theorem attachTo_imgLen (s : State) (n : Nat) (cells : List Host.Cell) :
    (attachTo s n cells).imgLen = s.imgLen := rfl

@[simp] theorem attachTo_inReset (s : State) (n : Nat) (cells : List Host.Cell) :
    (attachTo s n cells).inReset = s.inReset := rfl

@[simp] theorem attachTo_image (s : State) (n : Nat) (cells : List Host.Cell) :
    (attachTo s n cells).image = Image.mk n (memoryOfCells n cells) := rfl

@[simp] theorem attachTo_pending (s : State) (n : Nat) (cells : List Host.Cell) :
    (attachTo s n cells).pending = s.pending := rfl

@[simp] theorem attachTo_readData (s : State) (n : Nat) (cells : List Host.Cell) :
    (attachTo s n cells).readData = s.readData := rfl

@[simp] theorem attachTo_params (s : State) (n : Nat) (cells : List Host.Cell) :
    (attachTo s n cells).params = s.params := rfl

@[simp] theorem clearRegisters_src (s : State) :
    (clearRegisters s).src = 0x00 := rfl

@[simp] theorem clearRegisters_val (s : State) :
    (clearRegisters s).val = 0x00 := rfl

@[simp] theorem clearRegisters_result (s : State) :
    (clearRegisters s).result = 0x0000 := rfl

@[simp] theorem clearRegisters_status (s : State) :
    (clearRegisters s).status = Status.reset := rfl

@[simp] theorem clearRegisters_imgLen (s : State) :
    (clearRegisters s).imgLen = 0x00000000 := rfl

@[simp] theorem clearRegisters_inReset (s : State) :
    (clearRegisters s).inReset = s.inReset := rfl

@[simp] theorem clearRegisters_image (s : State) :
    (clearRegisters s).image = s.image := rfl

@[simp] theorem clearRegisters_pending (s : State) :
    (clearRegisters s).pending = s.pending := rfl

@[simp] theorem clearRegisters_readData (s : State) :
    (clearRegisters s).readData = s.readData := rfl

@[simp] theorem clearRegisters_params (s : State) :
    (clearRegisters s).params = s.params := rfl

@[simp] theorem raiseReset_src (s : State) :
    (raiseReset s).src = 0x00 := rfl

@[simp] theorem raiseReset_val (s : State) :
    (raiseReset s).val = 0x00 := rfl

@[simp] theorem raiseReset_result (s : State) :
    (raiseReset s).result = 0x0000 := rfl

@[simp] theorem raiseReset_status (s : State) :
    (raiseReset s).status = Status.reset := rfl

@[simp] theorem raiseReset_imgLen (s : State) :
    (raiseReset s).imgLen = 0x00000000 := rfl

@[simp] theorem raiseReset_inReset (s : State) :
    (raiseReset s).inReset = true := rfl

@[simp] theorem raiseReset_image (s : State) :
    (raiseReset s).image = s.image := rfl

@[simp] theorem raiseReset_pending (s : State) :
    (raiseReset s).pending = s.pending := rfl

@[simp] theorem raiseReset_readData (s : State) :
    (raiseReset s).readData = s.readData := rfl

@[simp] theorem raiseReset_params (s : State) :
    (raiseReset s).params = s.params := rfl

@[simp] theorem storeRegister_src_src (s : State) (data : Word) :
    (storeRegister s .src data).src = data.extractLsb' 0 8 := rfl

@[simp] theorem storeRegister_src_val (s : State) (data : Word) :
    (storeRegister s .src data).val = s.val := rfl

@[simp] theorem storeRegister_src_result (s : State) (data : Word) :
    (storeRegister s .src data).result = s.result := rfl

@[simp] theorem storeRegister_src_status (s : State) (data : Word) :
    (storeRegister s .src data).status = s.status := rfl

@[simp] theorem storeRegister_src_imgLen (s : State) (data : Word) :
    (storeRegister s .src data).imgLen = s.imgLen := rfl

@[simp] theorem storeRegister_src_inReset (s : State) (data : Word) :
    (storeRegister s .src data).inReset = s.inReset := rfl

@[simp] theorem storeRegister_src_image (s : State) (data : Word) :
    (storeRegister s .src data).image = s.image := rfl

@[simp] theorem storeRegister_src_pending (s : State) (data : Word) :
    (storeRegister s .src data).pending = s.pending := rfl

@[simp] theorem storeRegister_src_readData (s : State) (data : Word) :
    (storeRegister s .src data).readData = s.readData := rfl

@[simp] theorem storeRegister_src_params (s : State) (data : Word) :
    (storeRegister s .src data).params = s.params := rfl

@[simp] theorem storeRegister_val_src (s : State) (data : Word) :
    (storeRegister s .val data).src = s.src := rfl

@[simp] theorem storeRegister_val_val (s : State) (data : Word) :
    (storeRegister s .val data).val = data.extractLsb' 0 8 := rfl

@[simp] theorem storeRegister_val_result (s : State) (data : Word) :
    (storeRegister s .val data).result = s.result := rfl

@[simp] theorem storeRegister_val_status (s : State) (data : Word) :
    (storeRegister s .val data).status = s.status := rfl

@[simp] theorem storeRegister_val_imgLen (s : State) (data : Word) :
    (storeRegister s .val data).imgLen = s.imgLen := rfl

@[simp] theorem storeRegister_val_inReset (s : State) (data : Word) :
    (storeRegister s .val data).inReset = s.inReset := rfl

@[simp] theorem storeRegister_val_image (s : State) (data : Word) :
    (storeRegister s .val data).image = s.image := rfl

@[simp] theorem storeRegister_val_pending (s : State) (data : Word) :
    (storeRegister s .val data).pending = s.pending := rfl

@[simp] theorem storeRegister_val_readData (s : State) (data : Word) :
    (storeRegister s .val data).readData = s.readData := rfl

@[simp] theorem storeRegister_val_params (s : State) (data : Word) :
    (storeRegister s .val data).params = s.params := rfl

@[simp] theorem storeRegister_status_src (s : State) (data : Word) :
    (storeRegister s .status data).src = s.src := rfl

@[simp] theorem storeRegister_status_val (s : State) (data : Word) :
    (storeRegister s .status data).val = s.val := rfl

@[simp] theorem storeRegister_status_result (s : State) (data : Word) :
    (storeRegister s .status data).result = s.result := rfl

@[simp] theorem storeRegister_status_status (s : State) (data : Word) :
    (storeRegister s .status data).status = statusHostWrite s.status data := rfl

@[simp] theorem storeRegister_status_imgLen (s : State) (data : Word) :
    (storeRegister s .status data).imgLen = s.imgLen := rfl

@[simp] theorem storeRegister_status_inReset (s : State) (data : Word) :
    (storeRegister s .status data).inReset = s.inReset := rfl

@[simp] theorem storeRegister_status_image (s : State) (data : Word) :
    (storeRegister s .status data).image = s.image := rfl

@[simp] theorem storeRegister_status_pending (s : State) (data : Word) :
    (storeRegister s .status data).pending = s.pending := rfl

@[simp] theorem storeRegister_status_readData (s : State) (data : Word) :
    (storeRegister s .status data).readData = s.readData := rfl

@[simp] theorem storeRegister_status_params (s : State) (data : Word) :
    (storeRegister s .status data).params = s.params := rfl

@[simp] theorem storeRegister_imgLen_src (s : State) (data : Word) :
    (storeRegister s .imgLen data).src = s.src := rfl

@[simp] theorem storeRegister_imgLen_val (s : State) (data : Word) :
    (storeRegister s .imgLen data).val = s.val := rfl

@[simp] theorem storeRegister_imgLen_result (s : State) (data : Word) :
    (storeRegister s .imgLen data).result = s.result := rfl

@[simp] theorem storeRegister_imgLen_status (s : State) (data : Word) :
    (storeRegister s .imgLen data).status = s.status := rfl

@[simp] theorem storeRegister_imgLen_imgLen (s : State) (data : Word) :
    (storeRegister s .imgLen data).imgLen = data := rfl

@[simp] theorem storeRegister_imgLen_inReset (s : State) (data : Word) :
    (storeRegister s .imgLen data).inReset = s.inReset := rfl

@[simp] theorem storeRegister_imgLen_image (s : State) (data : Word) :
    (storeRegister s .imgLen data).image = s.image := rfl

@[simp] theorem storeRegister_imgLen_pending (s : State) (data : Word) :
    (storeRegister s .imgLen data).pending = s.pending := rfl

@[simp] theorem storeRegister_imgLen_readData (s : State) (data : Word) :
    (storeRegister s .imgLen data).readData = s.readData := rfl

@[simp] theorem storeRegister_imgLen_params (s : State) (data : Word) :
    (storeRegister s .imgLen data).params = s.params := rfl

theorem storeRegister_cmd (s : State) (data : Word) : storeRegister s .cmd data = s := rfl

theorem storeRegister_result (s : State) (data : Word) : storeRegister s .result data = s := rfl

theorem storeRegister_rsv18 (s : State) (data : Word) : storeRegister s .rsv18 data = s := rfl

theorem storeRegister_rsv1C (s : State) (data : Word) : storeRegister s .rsv1C data = s := rfl

/-- Releasing reset when it is asserted: every register at its reset value (R230). -/
theorem lowerReset_of_inReset (s : State) (h : s.inReset = true) :
    lowerReset s = { clearRegisters s with inReset := false } := by simp [lowerReset, h]

/-- Releasing reset when it is not asserted changes nothing. -/
theorem lowerReset_of_not_inReset (s : State) (h : s.inReset = false) : lowerReset s = s := by
  simp [lowerReset, h]

@[simp] theorem lowerReset_inReset (s : State) : (lowerReset s).inReset = false := by
  cases h : s.inReset <;> simp [lowerReset, h]

@[simp] theorem lowerReset_image (s : State) : (lowerReset s).image = s.image := by
  cases h : s.inReset <;> simp [lowerReset, h]

@[simp] theorem lowerReset_params (s : State) : (lowerReset s).params = s.params := by
  cases h : s.inReset <;> simp [lowerReset, h]

@[simp] theorem lowerReset_pending (s : State) : (lowerReset s).pending = s.pending := by
  cases h : s.inReset <;> simp [lowerReset, h]

@[simp] theorem lowerReset_readData (s : State) : (lowerReset s).readData = s.readData := by
  cases h : s.inReset <;> simp [lowerReset, h]

@[simp] theorem statusAfter_err (t : Status) (e : BitVec 4) (c u : Bool) :
    (statusAfter t e c u).err = e := rfl

@[simp] theorem statusAfter_ckok (t : Status) (e : BitVec 4) (c u : Bool) :
    (statusAfter t e c u).ckok = c := rfl

@[simp] theorem statusAfter_trunc (t : Status) (e : BitVec 4) (c u : Bool) :
    (statusAfter t e c u).trunc = u := rfl

@[simp] theorem statusAfter_errSeen (t : Status) (e : BitVec 4) (c u : Bool) :
    (statusAfter t e c u).errSeen = (t.errSeen || e != 0) := rfl

@[simp] theorem statusHostWrite_err (t : Status) (data : Word) :
    (statusHostWrite t data).err = t.err := by
  unfold statusHostWrite; split <;> rfl

@[simp] theorem statusHostWrite_ckok (t : Status) (data : Word) :
    (statusHostWrite t data).ckok = t.ckok := by
  unfold statusHostWrite; split <;> rfl

@[simp] theorem statusHostWrite_trunc (t : Status) (data : Word) :
    (statusHostWrite t data).trunc = t.trunc := by
  unfold statusHostWrite; split <;> rfl

/-- A host write clears `ERRSEEN` if bit 6 is set and leaves it otherwise (R33). -/
@[simp] theorem statusHostWrite_errSeen (t : Status) (data : Word) :
    (statusHostWrite t data).errSeen = (t.errSeen && !data.getLsbD 6) := by
  unfold statusHostWrite
  cases h : data.getLsbD 6 <;> simp

end Sys2Proof.Machine
end

