-- ==== Sys2Proof/Laws/Memory.lean ====
section
/-! SUPPORT. The laws of the image's memory: a write keeps the canonical form, a read after a write gives the
value written at its address and the old one elsewhere, canonical memories that read alike are equal, and what an
attached image reads as. -/

namespace Sys2Proof.Machine

@[simp] theorem memoryRead_nil (a : Nat) : memoryRead [] a = 0x00 := rfl

@[simp] theorem memoryRead_cons (c : Host.Cell) (m : Memory) (a : Nat) :
    memoryRead (c :: m) a = if c.1 = a then c.2 else memoryRead m a := rfl

/-- An address below every listed one reads as unlisted. -/
theorem memoryRead_of_lt (m : Memory) (a : Nat) (h : ∀ c ∈ m, a < c.1) : memoryRead m a = 0x00 := by
  induction m with
  | nil => rfl
  | cons c m ih =>
    have hc : a < c.1 := h c (by simp)
    rw [memoryRead_cons, if_neg (by omega), ih fun d hd => h d (by simp [hd])]

/-- Only listed cells stand in a written memory, beside the written one. -/
theorem mem_memoryWrite {m : Memory} {a : Nat} {b : Byte} {c : Host.Cell}
    (h : c ∈ memoryWrite m a b) : c ∈ m ∨ (c = (a, b) ∧ b ≠ 0x00) := by
  induction m with
  | nil =>
    unfold memoryWrite at h
    split at h
    · simp at h
    · exact .inr ⟨by simpa using h, ‹_›⟩
  | cons d m ih =>
    unfold memoryWrite at h
    split at h
    · split at h
      · exact .inl h
      · rcases List.mem_cons.1 h with h | h
        · exact .inr ⟨h, ‹_›⟩
        · exact .inl h
    · split at h
      · split at h
        · exact .inl (List.mem_cons_of_mem _ h)
        · rcases List.mem_cons.1 h with h | h
          · exact .inr ⟨h, ‹_›⟩
          · exact .inl (List.mem_cons_of_mem _ h)
      · rcases List.mem_cons.1 h with h | h
        · exact .inl (h ▸ List.mem_cons_self)
        · exact (ih h).imp (List.mem_cons_of_mem _) id

/-- A write keeps the canonical form. -/
theorem memoryWrite_wf {m : Memory} (h : m.wf) (a : Nat) (b : Byte) : (memoryWrite m a b).wf := by
  refine ⟨?_, fun c hc => ?_⟩
  · have hs := h.1
    clear h
    induction m with
    | nil => unfold memoryWrite; split <;> simp
    | cons d m ih =>
      have hd := List.pairwise_cons.1 hs
      unfold memoryWrite
      split
      · split
        · exact hs
        · refine List.pairwise_cons.2 ⟨fun e he => ?_, hs⟩
          rcases List.mem_cons.1 he with rfl | he
          · assumption
          · exact Nat.lt_trans ‹_› (hd.1 e he)
      · split
        · split
          · exact hd.2
          · refine List.pairwise_cons.2 ⟨fun e he => ?_, hd.2⟩
            have := hd.1 e he
            simp only
            omega
        · refine List.pairwise_cons.2 ⟨fun e he => ?_, ih hd.2⟩
          rcases mem_memoryWrite he with he | ⟨rfl, _⟩
          · exact hd.1 e he
          · simp only
            omega
  · rcases mem_memoryWrite hc with hc | ⟨rfl, hb⟩
    · exact h.2 c hc
    · exact hb

/-- A read after a write: the value written at its address, the old value at every other. -/
theorem memoryRead_write {m : Memory} (h : m.wf) (a a' : Nat) (b : Byte) :
    memoryRead (memoryWrite m a b) a' = if a' = a then b else memoryRead m a' := by
  have hs := h.1
  clear h
  induction m with
  | nil =>
    unfold memoryWrite
    split
    · rename_i hb
      rw [hb, memoryRead_nil, ite_self]
    · rw [memoryRead_cons]
      exact if_congr eq_comm rfl rfl
  | cons d m ih =>
    have hd := List.pairwise_cons.1 hs
    have low : ∀ x, x ≤ d.1 → memoryRead m x = 0x00 := fun x hx =>
      memoryRead_of_lt m x fun e he => Nat.lt_of_le_of_lt hx (hd.1 e he)
    unfold memoryWrite
    split
    · rename_i hlt
      split
      · rename_i hb
        split
        · rename_i ha
          rw [memoryRead_cons, if_neg (by omega), low _ (by omega), hb]
        · rfl
      · rw [memoryRead_cons]
        exact if_congr eq_comm rfl rfl
    · split
      · rename_i he
        split
        · rename_i hb
          split
          · rename_i ha
            rw [low _ (by omega), hb]
          · rw [memoryRead_cons, if_neg (by omega)]
        · rw [memoryRead_cons, memoryRead_cons]
          by_cases ha : a' = a
          · rw [if_pos ha.symm, if_pos ha]
          · rw [if_neg (Ne.symm ha), if_neg ha, if_neg (by omega)]
      · rw [memoryRead_cons, memoryRead_cons, ih hd.2]
        by_cases ha : a' = a
        · rw [if_neg (by omega), if_pos ha, if_pos ha]
        · rw [if_neg ha, if_neg ha]

/-- What a canonical memory lists at an address is what it reads there. -/
theorem memoryRead_of_mem {m : Memory} (h : m.wf) {c : Host.Cell} (hc : c ∈ m) :
    memoryRead m c.1 = c.2 := by
  have hs := h.1
  clear h
  induction m with
  | nil => simp at hc
  | cons d m ih =>
    have hd := List.pairwise_cons.1 hs
    rcases List.mem_cons.1 hc with rfl | hc
    · simp
    · have := hd.1 c hc
      rw [memoryRead_cons, if_neg (by omega), ih hc hd.2]

/-- Canonical memories that read alike are the same list. -/
theorem memory_ext {m m' : Memory} (h : m.wf) (h' : m'.wf)
    (hr : ∀ a, memoryRead m a = memoryRead m' a) : m = m' := by
  induction m generalizing m' with
  | nil =>
    cases m' with
    | nil => rfl
    | cons d m' =>
      have h0 := hr d.1
      rw [memoryRead_of_mem h' (List.mem_cons_self)] at h0
      exact absurd h0.symm (h'.2 d (by simp))
  | cons c m ih =>
    cases m' with
    | nil =>
      have h0 := hr c.1
      rw [memoryRead_of_mem h (List.mem_cons_self)] at h0
      exact absurd h0 (h.2 c (by simp))
    | cons d m' =>
      have hc := List.pairwise_cons.1 h.1
      have hd := List.pairwise_cons.1 h'.1
      have lowc : ∀ x, x ≤ c.1 → memoryRead m x = 0x00 := fun x hx =>
        memoryRead_of_lt m x fun e he => Nat.lt_of_le_of_lt hx (hc.1 e he)
      have lowd : ∀ x, x ≤ d.1 → memoryRead m' x = 0x00 := fun x hx =>
        memoryRead_of_lt m' x fun e he => Nat.lt_of_le_of_lt hx (hd.1 e he)
      have nc := h.2 c (by simp)
      have nd := h'.2 d (by simp)
      have hcd : c.1 = d.1 := by
        rcases Nat.lt_trichotomy c.1 d.1 with hlt | heq | hlt
        · have h0 := hr c.1
          rw [memoryRead_cons, memoryRead_cons, if_pos rfl, if_neg (by omega), lowd _ (by omega)] at h0
          exact absurd h0 nc
        · exact heq
        · have h0 := hr d.1
          rw [memoryRead_cons, memoryRead_cons, if_pos rfl, if_neg (by omega), lowc _ (by omega)] at h0
          exact absurd h0.symm nd
      have hv : c.2 = d.2 := by
        have h0 := hr c.1
        rwa [memoryRead_cons, memoryRead_cons, if_pos rfl, if_pos hcd.symm] at h0
      have htail : m = m' := by
        refine ih ⟨hc.2, fun e he => h.2 e (by simp [he])⟩
          ⟨hd.2, fun e he => h'.2 e (by simp [he])⟩ fun a => ?_
        by_cases ha : c.1 = a
        · rw [lowc a (by omega), lowd a (by omega)]
        · have h0 := hr a
          rwa [memoryRead_cons, memoryRead_cons, if_neg ha, if_neg (by omega)] at h0
      rw [htail, Prod.ext hcd hv]

/-- The memory of listed cells, from a canonical memory whose cells lie below the size. -/
theorem foldl_write_wf (n : Nat) (cells : List Host.Cell) (m : Memory)
    (h : m.wf) (hn : ∀ c ∈ m, c.1 < n) :
    (cells.foldl (fun m c => if c.1 < n then memoryWrite m c.1 c.2 else m) m).wf ∧
      ∀ c ∈ cells.foldl (fun m c => if c.1 < n then memoryWrite m c.1 c.2 else m) m, c.1 < n := by
  induction cells generalizing m with
  | nil => exact ⟨h, hn⟩
  | cons d cells ih =>
    rw [List.foldl_cons]
    by_cases hd : d.1 < n
    · rw [if_pos hd]
      refine ih _ (memoryWrite_wf h _ _) fun c hc => ?_
      rcases mem_memoryWrite hc with hc | ⟨rfl, _⟩
      · exact hn c hc
      · exact hd
    · rw [if_neg hd]
      exact ih m h hn

/-- An attached image is canonical, whatever cells the platform lists. -/
theorem memoryOfCells_wf (n : Nat) (cells : List Host.Cell) :
    (Image.mk n (memoryOfCells n cells)).wf :=
  foldl_write_wf n cells [] ⟨List.Pairwise.nil, by simp⟩ (by simp)

/-- Listing one more cell below the size sets that byte and no other. -/
theorem memoryOfCells_append_single (n : Nat) (cells : List Host.Cell) (c : Host.Cell)
    (hc : c.1 < n) (a : Nat) :
    memoryRead (memoryOfCells n (cells ++ [c])) a =
      if a = c.1 then c.2 else memoryRead (memoryOfCells n cells) a := by
  unfold memoryOfCells
  rw [List.foldl_append, List.foldl_cons, List.foldl_nil, if_pos hc]
  exact memoryRead_write (foldl_write_wf n cells [] ⟨List.Pairwise.nil, by simp⟩ (by simp)).1 _ _ _

/-! ### Reads through the image port -/

theorem imageByte_of_lt {g : Image} {a : Nat} (h : a < g.size) :
    imageByte g a = some (memoryRead g.bytes a) := by simp [imageByte, h]

theorem imageByte_of_ge {g : Image} {a : Nat} (h : g.size ≤ a) : imageByte g a = none := by
  simp [imageByte, Nat.not_lt.2 h]

/-- n bytes that all exist read as the list of the bytes, in address order (R13). -/
theorem imageBytes_of_le {g : Image} {a n : Nat} (h : a + n ≤ g.size) :
    imageBytes g a n = some ((List.range' a n).map (memoryRead g.bytes)) := by
  induction n generalizing a with
  | zero => rfl
  | succ n ih =>
    rw [imageBytes, imageByte_of_lt (by omega), ih (by omega), List.range'_succ]
    rfl

/-- n > 0 bytes of which some do not exist cannot be read. -/
theorem imageBytes_of_lt {g : Image} {a n : Nat} (hn : 0 < n) (h : g.size < a + n) :
    imageBytes g a n = none := by
  induction n generalizing a with
  | zero => omega
  | succ n ih =>
    rw [imageBytes]
    by_cases ha : a < g.size
    · rw [imageByte_of_lt ha, ih (by omega) (by omega)]
      rfl
    · rw [imageByte_of_ge (by omega)]

/-- Images that read alike on a range give the same bytes there. -/
theorem imageBytes_congr {g g' : Image} {a n : Nat}
    (h : ∀ x ∈ List.range' a n, imageByte g x = imageByte g' x) :
    imageBytes g a n = imageBytes g' a n := by
  induction n generalizing a with
  | zero => rfl
  | succ n ih =>
    rw [imageBytes, imageBytes, h a (by simp [List.range'_succ]),
      ih fun x hx => h x (by rw [List.range'_succ]; exact List.mem_cons_of_mem _ hx)]

theorem length_of_imageBytes {g : Image} {a n : Nat} {bs : List Byte}
    (h : imageBytes g a n = some bs) : bs.length = n := by
  induction n generalizing a bs with
  | zero => simp only [imageBytes, Option.some.injEq] at h; subst h; rfl
  | succ n ih =>
    rw [imageBytes] at h
    split at h
    · simp at h
    · obtain ⟨cs, hcs, rfl⟩ := Option.map_eq_some_iff.1 h
      simp [ih hcs]

end Sys2Proof.Machine
end

