-- ==== Sys2Proof/Laws/Ops.lean ====
section
/-! SUPPORT. One lemma per shared operation, saying once everything it can do; the provers cite these in place of
unfolding the operations. -/

namespace Sys2Proof.Machine

/-! ### The end of a command -/

theorem raise_eq (e : CmdError) (s : State) :
    raise e s = .next (endCommand (errorCode e) false false s) := rfl

theorem succeed_eq (c u : Bool) (s : State) : succeed c u s = .next (endCommand 0 c u s) := rfl

/-- What an error leaves in `STATUS` (R204). -/
theorem statusAfter_error (t : Status) (e : CmdError) :
    statusAfter t (errorCode e) false false =
      { err := errorCode e, ckok := false, trunc := false, errSeen := true } := by
  cases e <;> simp [statusAfter, errorCode]

/-- What success leaves in `STATUS` (R90): `ERRSEEN` is kept. -/
theorem statusAfter_success (t : Status) (c u : Bool) :
    statusAfter t 0 c u = { err := 0, ckok := c, trunc := u, errSeen := t.errSeen } := by
  simp [statusAfter]

theorem errorCode_ne_zero (e : CmdError) : errorCode e ≠ 0 := by cases e <;> decide

theorem errorCode_le (e : CmdError) : errorCode e ≤ 7 := by cases e <;> decide

theorem errorCode_injective (e e' : CmdError) (h : errorCode e = errorCode e') : e = e' := by
  cases e <;> cases e' <;> first | rfl | exact absurd h (by decide)

/-! ### The checks -/

theorem withDescriptor_of_le {off width : Nat} (h : off + width ≤ 8) (s : State) (go : Out) :
    withDescriptor off width s go = go := by simp [withDescriptor, descriptorValid, h]

theorem withDescriptor_of_gt {off width : Nat} (h : 8 < off + width) (s : State) (go : Out) :
    withDescriptor off width s go = raise .descriptorError s := by
  simp [withDescriptor, descriptorValid, Nat.not_le.2 h]

theorem withHeader_of_le {n : Nat} {s : State} (h : n ≤ s.imgLen.toNat) (go : Out) :
    withHeader n s go = go := by simp [withHeader, Nat.not_lt.2 h]

theorem withHeader_of_lt {n : Nat} {s : State} (h : s.imgLen.toNat < n) (go : Out) :
    withHeader n s go = raise .headerTooShort s := by simp [withHeader, h]

theorem withinImage_of_lt {a : Nat} {s : State} (h : a < s.imgLen.toNat) (go : Out) :
    withinImage a s go = go := by simp [withinImage, Nat.not_le.2 h]

theorem withinImage_of_le {a : Nat} {s : State} (h : s.imgLen.toNat ≤ a) (go : Out) :
    withinImage a s go = raise .imageRange s := by simp [withinImage, h]

/-- Where the image port has all the bytes, the command goes on with them. -/
theorem withImage_of_le {a n : Nat} {s : State} (h : a + n ≤ s.image.size) (go : List Byte → Out) :
    withImage a n s go = go ((List.range' a n).map (memoryRead s.image.bytes)) := by
  simp [withImage, imageBytes_of_le h]

/-- Where it has not, the command is refused (R242). -/
theorem withImage_of_gt {a n : Nat} {s : State} (hn : 0 < n) (h : s.image.size < a + n)
    (go : List Byte → Out) : withImage a n s go = .refused .noImageByte := by
  simp [withImage, imageBytes_of_lt hn h]

/-- An image read answers what its continuation answers, or refuses. -/
theorem withImage_cases (a n : Nat) (s : State) (go : List Byte → Out) :
    withImage a n s go = .refused .noImageByte ∨
      ∃ bs, imageBytes s.image a n = some bs ∧ withImage a n s go = go bs := by
  unfold withImage
  split
  · exact .inl rfl
  · exact .inr ⟨_, ‹_›, rfl⟩

theorem endComparison_true (e : CmdError) (s : State) :
    endComparison true e s = succeed true false s := rfl

theorem endComparison_false (e : CmdError) (s : State) : endComparison false e s = raise e s := rfl

/-! ### The register port -/

theorem regAtOffset_regOffset (r : PortReg) : regAtOffset (regOffset r) = some r := by
  cases r <;> rfl

/-- Only the eight offsets of R24 name a register. -/
theorem regAtOffset_eq_some {n : Nat} {r : PortReg} (h : regAtOffset n = some r) :
    n = regOffset r := by
  unfold regAtOffset at h
  split at h <;> cases h <;> rfl

/-- An aligned word access at `REG_BASE` plus a register's offset is an access to it. -/
theorem portReg_of_offset (p : Params) (r : PortReg) :
    portReg p .word (p.regBase + regOffset r) = some r := by
  simp [portReg, regAtOffset_regOffset]

/-- An access to a register is a word access at `REG_BASE` plus its offset, and no other (R38). -/
theorem portReg_eq_some {p : Params} {size : AccessSize} {addr : Nat} {r : PortReg}
    (h : portReg p size addr = some r) : size = .word ∧ addr = p.regBase + regOffset r := by
  cases size with
  | byte => simp [portReg] at h
  | half => simp [portReg] at h
  | word =>
    simp only [portReg] at h
    split at h
    · have := regAtOffset_eq_some h
      exact ⟨rfl, by omega⟩
    · simp at h

/-- A host write to a word other than `CMD` stores, and completes. -/
theorem writeRegister_of_ne_cmd {r : PortReg} (h : r ≠ .cmd) (data : Word) (s : State) :
    writeRegister r data s = .next (storeRegister s r data) := by
  cases r <;> first | rfl | exact absurd rfl h

theorem writeRegister_cmd (data : Word) (s : State) :
    writeRegister .cmd data s = commandStep data s := rfl

end Sys2Proof.Machine
end

