-- ==== Sys2Proof/Laws/Exec.lean ====
section
/-! SUPPORT. What a command can do, said once for all eight: it is refused for want of an image byte, or it ends with
new values of `RESULT` and `STATUS` and everything else as it was; and what one step can do, event by event. -/

namespace Sys2Proof.Machine

/-- A command's end: `RESULT` and `STATUS` written, all else kept. A reserved error code is not written, and
`CKOK` and `TRUNC` are not set together or beside an error. -/
def EndsIn (s : State) (o : Out) : Prop :=
  ∃ (r : Half) (e : BitVec 4) (c u : Bool),
    o = .next { s with result := r, status := statusAfter s.status e c u } ∧
      e ≤ 7 ∧ (e ≠ 0 → c = false ∧ u = false) ∧ ¬(c = true ∧ u = true)

/-- A command's outcome: an end, or the refusal of R242. -/
def CommandOutcome (s : State) (o : Out) : Prop := o = .refused .noImageByte ∨ EndsIn s o

theorem raise_endsIn (e : CmdError) (s : State) : EndsIn s (raise e s) :=
  ⟨s.result, errorCode e, false, false, rfl, errorCode_le e, fun _ => ⟨rfl, rfl⟩, by simp⟩

theorem raise_setResult_endsIn (e : CmdError) (s : State) (v : Half) :
    EndsIn s (raise e (s.setResult v)) :=
  ⟨v, errorCode e, false, false, rfl, errorCode_le e, fun _ => ⟨rfl, rfl⟩, by simp⟩

theorem succeed_endsIn (c u : Bool) (h : ¬(c = true ∧ u = true)) (s : State) :
    EndsIn s (succeed c u s) :=
  ⟨s.result, 0, c, u, rfl, by decide, fun h0 => absurd rfl h0, h⟩

theorem succeed_setResult_endsIn (c u : Bool) (h : ¬(c = true ∧ u = true)) (s : State) (v : Half) :
    EndsIn s (succeed c u (s.setResult v)) :=
  ⟨v, 0, c, u, rfl, by decide, fun h0 => absurd rfl h0, h⟩

theorem endComparison_endsIn (b : Bool) (e : CmdError) (s : State) :
    EndsIn s (endComparison b e s) := by
  cases b
  · exact raise_endsIn e s
  · exact succeed_endsIn _ _ (by simp) s

theorem endComparison_setResult_endsIn (b : Bool) (e : CmdError) (s : State) (v : Half) :
    EndsIn s (endComparison b e (s.setResult v)) := by
  cases b
  · exact raise_setResult_endsIn e s v
  · exact succeed_setResult_endsIn _ _ (by simp) s v

theorem withDescriptor_outcome {off width : Nat} {s : State} {go : Out} (h : CommandOutcome s go) :
    CommandOutcome s (withDescriptor off width s go) := by
  unfold withDescriptor
  split
  · exact h
  · exact .inr (raise_endsIn _ s)

theorem withHeader_outcome {n : Nat} {s : State} {go : Out} (h : CommandOutcome s go) :
    CommandOutcome s (withHeader n s go) := by
  unfold withHeader
  split
  · exact .inr (raise_endsIn _ s)
  · exact h

theorem withinImage_outcome {a : Nat} {s : State} {go : Out} (h : CommandOutcome s go) :
    CommandOutcome s (withinImage a s go) := by
  unfold withinImage
  split
  · exact .inr (raise_endsIn _ s)
  · exact h

theorem withImage_outcome {a n : Nat} {s : State} {go : List Byte → Out}
    (h : ∀ bs, CommandOutcome s (go bs)) : CommandOutcome s (withImage a n s go) := by
  rcases withImage_cases a n s go with h' | ⟨bs, _, h'⟩
  · exact .inl h'
  · rw [h']
    exact h bs

/-- What any command can do. -/
theorem exec_outcome (i : Instr) (s : State) : CommandOutcome s (exec i s) := by
  cases i with
  | ext off width =>
    exact withDescriptor_outcome (.inr (succeed_setResult_endsIn _ _ (by simp) s _))
  | extm off width addr =>
    exact withDescriptor_outcome (withinImage_outcome (withImage_outcome fun _ =>
      .inr (succeed_setResult_endsIn _ _ (by simp) s _)))
  | enc off width =>
    exact withDescriptor_outcome (.inr (succeed_setResult_endsIn _ _ (by simp) s _))
  | enca off width =>
    exact withDescriptor_outcome (.inr (succeed_setResult_endsIn _ _ (by simp) s _))
  | hck =>
    exact withHeader_outcome (withImage_outcome fun _ => withImage_outcome fun _ =>
      .inr (endComparison_setResult_endsIn _ _ s _))
  | gck =>
    exact withHeader_outcome (withImage_outcome fun _ =>
      .inr (succeed_setResult_endsIn _ _ (by simp) s _))
  | logo =>
    exact withHeader_outcome (withImage_outcome fun _ => .inr (endComparison_endsIn _ _ s))
  | magic =>
    exact withHeader_outcome (withImage_outcome fun _ => .inr (endComparison_endsIn _ _ s))

/-- What any word written to `CMD` can do (R90). -/
theorem commandStep_outcome (w : Word) (s : State) : CommandOutcome s (commandStep w s) := by
  unfold commandStep
  split
  · exact exec_outcome _ s
  · exact .inr (raise_endsIn _ s)

/-- A next state after a command: only `RESULT` and `STATUS` may differ. -/
theorem commandStep_next {w : Word} {s t : State} (h : commandStep w s = .next t) :
    ∃ (r : Half) (e : BitVec 4) (c u : Bool),
      t = { s with result := r, status := statusAfter s.status e c u } ∧
        e ≤ 7 ∧ (e ≠ 0 → c = false ∧ u = false) ∧ ¬(c = true ∧ u = true) := by
  rcases commandStep_outcome w s with h' | ⟨r, e, c, u, h', hr⟩
  · rw [h] at h'
    simp at h'
  · rw [h] at h'
    exact ⟨r, e, c, u, by simpa using h', hr⟩

/-- What one event can do when it is served and answers a next state. -/
theorem serve_next {e : HostEvent} {s t : State} (h : serve e s = .next t) :
    (∃ size addr r, e = .read size addr ∧ portReg s.params size addr = some r ∧
      t = { s with readData := portRead s r }) ∨
    (∃ size addr data r, e = .write size addr data ∧ portReg s.params size addr = some r ∧
      s.inReset = true ∧ t = s) ∨
    (∃ size addr data, e = .write size addr data ∧ portReg s.params size addr = some .cmd ∧
      s.inReset = false ∧ commandStep data s = .next t) ∨
    (∃ size addr data r, e = .write size addr data ∧ portReg s.params size addr = some r ∧
      r ≠ .cmd ∧ s.inReset = false ∧ t = storeRegister s r data) ∨
    (e = .assertReset ∧ t = raiseReset s) ∨
    (e = .releaseReset ∧ t = lowerReset s) ∨
    (∃ size cells, e = .attachImage size cells ∧ t = attachTo s size cells) := by
  cases e with
  | read size addr =>
    simp only [serve] at h
    split at h
    · simp at h
    · exact .inl ⟨_, _, _, rfl, ‹_›, by simpa using h.symm⟩
  | write size addr data =>
    simp only [serve] at h
    split at h
    · simp at h
    · rename_i r hr
      split at h
      · exact .inr (.inl ⟨_, _, _, r, rfl, hr, ‹_›, by simpa using h.symm⟩)
      · rename_i hreset
        have hreset' : s.inReset = false := by simpa using hreset
        by_cases hc : r = .cmd
        · subst hc
          exact .inr (.inr (.inl ⟨_, _, _, rfl, hr, hreset', h⟩))
        · rw [writeRegister_of_ne_cmd hc] at h
          exact .inr (.inr (.inr (.inl ⟨_, _, _, r, rfl, hr, hc, hreset', by simpa using h.symm⟩)))
  | assertReset => exact .inr (.inr (.inr (.inr (.inl ⟨rfl, by simpa [serve] using h.symm⟩))))
  | releaseReset =>
    exact .inr (.inr (.inr (.inr (.inr (.inl ⟨rfl, by simpa [serve] using h.symm⟩)))))
  | attachImage size cells =>
    exact .inr (.inr (.inr (.inr (.inr (.inr ⟨_, _, rfl, by simpa [serve] using h.symm⟩)))))
  | secondHost => simp [serve] at h

/-- A step serves the oldest pending event, or does nothing if none is pending. -/
theorem step_of_pending {s : State} {e : HostEvent} {rest : List HostEvent}
    (h : s.pending = e :: rest) : step s = serve e { s with pending := rest } := by
  simp [step, serveNext, h]

theorem step_of_idle {s : State} (h : s.pending = []) : step s = .next s := by
  simp [step, serveNext, h]

/-! ### Runs -/

theorem core_run_zero (s : State) : Sys2Proof.core.run 0 s = .next s := rfl

/-- A run of one step more, where the step answers a next state. -/
theorem core_run_succ {s t : State} (n : Nat) (h : step s = .next t) :
    Sys2Proof.core.run (n + 1) s = Sys2Proof.core.run n t := by
  have h' : Sys2Proof.core.step s = .next t := h
  have e := Host.Core.run.eq_2 Sys2Proof.core s n
  rw [h'] at e
  exact e

end Sys2Proof.Machine
end

