-- ==== Sys2Proof/Laws/PerInstr.lean ====
section
/-! SUPPORT. One lemma per constructor of Instr: the encoded word of a command is one its own row of the opcode table
takes (R75). -/

namespace Sys2Proof.Laws.TableRow

open Sys2Proof

/-- The row of the opcode table a command belongs to (R75). -/
def rowOf : Instr → OpcodeRow
  | .ext _ _ => ⟨.ext, 0x10000000, 0xF03FFFFF⟩
  | .extm _ _ _ => ⟨.extm, 0x20000000, 0xF03F0000⟩
  | .enc _ _ => ⟨.enc, 0x30000000, 0xF03FFFFF⟩
  | .enca _ _ => ⟨.enca, 0x40000000, 0xF03FFFFF⟩
  | .hck => ⟨.hck, 0x50000000, 0xFFFFFFFF⟩
  | .gck => ⟨.gck, 0x60000000, 0xFFFFFFFF⟩
  | .logo => ⟨.logo, 0x70000000, 0xFFFFFFFF⟩
  | .magic => ⟨.magic, 0x80000000, 0xFFFFFFFF⟩

/-- The command's row stands in the table and takes the command's word. -/
def Statement (i : Instr) : Prop := rowOf i ∈ opcodeTable ∧ rowMatches (encode i) (rowOf i) = true

/-- A format-B word under a mask that keeps `OP` and drops `OFF` and `WM1`, bit by bit. -/
theorem formatB_and (op : BitVec 4) (off width addr : Nat) (low : BitVec 22) :
    formatB op off width addr &&& ((0xF : BitVec 4) ++ (0 : BitVec 6) ++ low : Word) =
      op ++ (0 : BitVec 6) ++ ((0#6 ++ BitVec.ofNat 16 addr : BitVec 22) &&& low) := by
  apply BitVec.eq_of_getLsbD_eq
  intro i hi
  simp only [formatB, BitVec.getLsbD_and, BitVec.getLsbD_append]
  by_cases h1 : i < 16
  · have h2 : i < 22 := by omega
    simp [h1, h2]
  · by_cases h2 : i < 22
    · have h3 : i - 16 < 6 := by omega
      simp [h1, h2, h3]
    · by_cases h3 : i < 28
      · have h4 : i - 22 < 6 := by omega
        simp [h2, h4]
      · have h4 : ¬ i - 16 < 6 := by omega
        have h5 : ¬ i - 16 - 6 < 3 := by omega
        have h6 : ¬ i - 16 - 6 - 3 < 3 := by omega
        have h7 : ¬ i - 22 < 6 := by omega
        have h8 : i - 16 - 6 - 3 - 3 = i - 28 := by omega
        have h9 : i - 22 - 6 = i - 28 := by omega
        have h10 : i - 28 < 4 := by omega
        have h11 : (15#4 : BitVec 4).getLsbD (i - 28) = true := by
          interval_cases h : i - 28 <;> rfl
        simp [h1, h2, h4, h5, h6, h7, h8, h9, h11]

/-- A format-B word without an address matches a row whose mask also covers bits [21:0]. -/
theorem rowMatches_formatB (o : Opcode) (op : BitVec 4) (off width : Nat) :
    rowMatches (formatB op off width 0) ⟨o, op ++ (0 : BitVec 28), 0xF03FFFFF⟩ = true := by
  have h := formatB_and op off width 0 0x3FFFFF
  have hm : ((0xF : BitVec 4) ++ (0 : BitVec 6) ++ (0x3FFFFF : BitVec 22) : Word) = 0xF03FFFFF := by
    decide
  rw [hm] at h
  unfold rowMatches
  simp only [h, beq_iff_eq]
  clear h
  revert op
  decide

/-- An `EXTM` word matches its row whatever its address. -/
theorem rowMatches_formatB_addr (off width addr : Nat) :
    rowMatches (formatB 0x2 off width addr) ⟨.extm, 0x20000000, 0xF03F0000⟩ = true := by
  have h := formatB_and 0x2 off width addr 0x3F0000
  have hm : ((0xF : BitVec 4) ++ (0 : BitVec 6) ++ (0x3F0000 : BitVec 22) : Word) = 0xF03F0000 := by
    decide
  rw [hm] at h
  have hz : ((0#6 ++ BitVec.ofNat 16 addr : BitVec 22) &&& 0x3F0000) = 0 := by
    apply BitVec.eq_of_getLsbD_eq
    intro i hi
    simp only [BitVec.getLsbD_and, BitVec.getLsbD_append]
    by_cases h1 : i < 16
    · have : (4128768#22).getLsbD i = false := by
        interval_cases i <;> rfl
      simp [this]
    · simp [h1]
  rw [hz] at h
  unfold rowMatches
  simp only [h]
  decide

theorem ext (off width : Nat) : Statement (.ext off width) :=
  ⟨by simp [rowOf, opcodeTable], rowMatches_formatB .ext 0x1 off width⟩

theorem extm (off width addr : Nat) : Statement (.extm off width addr) :=
  ⟨by simp [rowOf, opcodeTable], rowMatches_formatB_addr off width addr⟩

theorem enc (off width : Nat) : Statement (.enc off width) :=
  ⟨by simp [rowOf, opcodeTable], rowMatches_formatB .enc 0x3 off width⟩

theorem enca (off width : Nat) : Statement (.enca off width) :=
  ⟨by simp [rowOf, opcodeTable], rowMatches_formatB .enca 0x4 off width⟩

theorem hck : Statement .hck := ⟨by simp [rowOf, opcodeTable], by decide⟩

theorem gck : Statement .gck := ⟨by simp [rowOf, opcodeTable], by decide⟩

theorem logo : Statement .logo := ⟨by simp [rowOf, opcodeTable], by decide⟩

theorem magic : Statement .magic := ⟨by simp [rowOf, opcodeTable], by decide⟩

end Sys2Proof.Laws.TableRow
end

