-- ==== Sys2Proof/Tests/Slice0.lean ====
section
/-! SUPPORT. The model's own tests. Expected values are the spec's: the encodings of 30_encoding.md and the vectors of
95_test_vectors.md, cited by their names (V-EXT-1 and so on). Then one witness for each statement that has
hypotheses: a concrete state and operands that meet them. -/

namespace Sys2Proof.Tests

open Sys2Proof Sys2Proof.Machine

/-! ### Well-formedness: an ill-formed term for each check (R73, R74) -/

theorem test_wf_ext_offset : (Instr.ext 8 1).wellFormed = false := by decide
theorem test_wf_ext_width_zero : (Instr.ext 0 0).wellFormed = false := by decide
theorem test_wf_ext_width_nine : (Instr.ext 0 9).wellFormed = false := by decide
theorem test_wf_extm_offset : (Instr.extm 8 1 0).wellFormed = false := by decide
theorem test_wf_extm_width_zero : (Instr.extm 0 0 0).wellFormed = false := by decide
theorem test_wf_extm_width_nine : (Instr.extm 0 9 0).wellFormed = false := by decide
theorem test_wf_extm_address : (Instr.extm 0 8 0x10000).wellFormed = false := by decide
theorem test_wf_enc_offset : (Instr.enc 8 1).wellFormed = false := by decide
theorem test_wf_enc_width_zero : (Instr.enc 0 0).wellFormed = false := by decide
theorem test_wf_enc_width_nine : (Instr.enc 0 9).wellFormed = false := by decide
theorem test_wf_enca_offset : (Instr.enca 8 1).wellFormed = false := by decide
theorem test_wf_enca_width_zero : (Instr.enca 0 0).wellFormed = false := by decide
theorem test_wf_enca_width_nine : (Instr.enca 0 9).wellFormed = false := by decide

/-- A descriptor that leaves the byte is well-formed: it decodes and fails when run (R79). -/
theorem test_wf_invalid_descriptor : (Instr.ext 7 8).wellFormed = true := by decide

/-! ### Decoding: words written out bit by bit from R71, R72, R75 -/

theorem test_decode_ext :
    decode (0b0001#4 ++ 0b010#3 ++ 0b010#3 ++ 0#22) = .command (.ext 2 3) := by decide
theorem test_decode_extm :
    decode (0b0010#4 ++ 0b111#3 ++ 0b000#3 ++ 0#6 ++ 0x0143#16) = .command (.extm 7 1 0x143) := by
  decide
theorem test_decode_enc :
    decode (0b0011#4 ++ 0b101#3 ++ 0b011#3 ++ 0#22) = .command (.enc 5 4) := by decide
theorem test_decode_enca :
    decode (0b0100#4 ++ 0b100#3 ++ 0b011#3 ++ 0#22) = .command (.enca 4 4) := by decide
theorem test_decode_hck : decode (0b0101#4 ++ 0#28) = .command .hck := by decide
theorem test_decode_gck : decode (0b0110#4 ++ 0#28) = .command .gck := by decide
theorem test_decode_logo : decode (0b0111#4 ++ 0#28) = .command .logo := by decide
theorem test_decode_magic : decode (0b1000#4 ++ 0#28) = .command .magic := by decide

/-- V-ILL-1 to V-ILL-3: `OP` 0x0, 0x9, 0xF. -/
theorem test_decode_illegal_opcode :
    decode 0x00000000 = .illegal .opcode ∧ decode 0x90000000 = .illegal .opcode ∧
      decode 0xF0000000 = .illegal .opcode := by decide

/-- V-EXT-15, V-EXTM-8, V-ILL-4 to V-ILL-6: a reserved bit set. -/
theorem test_decode_illegal_reserved :
    decode 0x14A00000 = .illegal .reserved ∧ decode 0x20010006 = .illegal .reserved ∧
      decode 0x50000001 = .illegal .reserved ∧ decode 0x80000100 = .illegal .reserved ∧
      decode 0x70800000 = .illegal .reserved := by decide

theorem test_decodeTableWord : decodeTableWord 32 0x24400007 = some (.extm 2 2 7) := by decide

/-! ### One command each, from 95_test_vectors.md -/

/-- `RESULT` and `STATUS` after a step that runs a word. -/
def after (s : State) (w : Nat) : Option (Half × Word) :=
  match step (s.withFetchWord 32 w) with
  | .next t => some (t.result, statusWord t.status)
  | .fault _ => none
  | .refused _ => none

/-- Reset, an image of n bytes attached and its length written. -/
def withImageOf (n : Nat) (cells : List Host.Cell) : State :=
  { attachTo State.reset n cells with imgLen := BitVec.ofNat 32 n, result := 0x1234 }

/-- Image N: 4E 45 53 1A 10 00 21 28 02 00 07 07 00 00 00 00. -/
def imageN : State :=
  withImageOf 16
    [(0, 0x4E), (1, 0x45), (2, 0x53), (3, 0x1A), (4, 0x10), (6, 0x21), (7, 0x28), (8, 0x02),
     (10, 0x07), (11, 0x07)]

/-- Image P1's cells outside the logo. -/
def p1Cells : List Host.Cell :=
  [(0x134, 0x54), (0x135, 0x45), (0x136, 0x53), (0x137, 0x54), (0x143, 0x80), (0x147, 0x01),
   (0x14A, 0x01), (0x14B, 0x33), (0x14D, 0xF2), (0x14E, 0x12), (0x14F, 0x34)]

/-- A logo region that equals the reference logo of the state's parameters. -/
def logoCells : List Host.Cell :=
  (List.finRange 48).map fun k => (0x104 + k.val, State.reset.params.logoRef[k])

/-- V-EXT-1 and V-EXT-10. -/
theorem test_ext :
    after { State.reset with src := 0xB4 } 0x14800000 = some (0x0005, 0x00) := by decide
theorem test_ext_descriptor :
    after { State.reset with src := 0xB4, result := 0x1234 } 0x1E400000 = some (0x1234, 0x45) := by
  decide

/-- V-EXTM-1 and V-EXTM-3. -/
theorem test_extm : after imageN 0x24400007 = some (0x0002, 0x00) := by decide
theorem test_extm_range : after imageN 0x21C00010 = some (0x1234, 0x46) := by decide

/-- V-ENC-2 and V-ENC-9. -/
theorem test_enc_truncates :
    after { State.reset with val := 0x0F, result := 0xBEEF } 0x34800000 = some (0x001C, 0x20) := by
  decide
theorem test_enc_descriptor :
    after { State.reset with val := 0xFF, result := 0xBEEF } 0x3AC00000 = some (0xBEEF, 0x45) := by
  decide

/-- V-ENCA-1 and V-ENCA-2. -/
theorem test_enca :
    after { State.reset with val := 0x03, result := 0x000A } 0x48C00000 = some (0x003A, 0x00) := by
  decide
theorem test_enca_clears_high_byte :
    after { State.reset with result := 0x1234 } 0x40000000 = some (0x0034, 0x00) := by decide

/-- V-HCK-6 and V-HCK-7 (the logo region does not enter the checksum). -/
theorem test_hck : after (withImageOf 0x150 p1Cells) 0x50000000 = some (0x00F2, 0x10) := by decide
theorem test_hck_mismatch :
    after (withImageOf 0x150 (p1Cells ++ [(0x13A, 0x01)])) 0x50000000 = some (0x00F1, 0x44) := by
  decide

/-- V-GCK-2 and V-GCK-3. -/
theorem test_gck :
    after (withImageOf 0x150 [(0x14E, 0xFF), (0x14F, 0x00)]) 0x60000000 = some (0xFF00, 0x00) := by
  decide
theorem test_gck_short : after (withImageOf 0x14F []) 0x60000000 = some (0x1234, 0x41) := by decide

set_option maxRecDepth 8000 in
/-- V-LOGO-1. -/
theorem test_logo : after (withImageOf 0x150 logoCells) 0x70000000 = some (0x1234, 0x10) := by
  decide
set_option maxRecDepth 8000 in
/-- V-LOGO-3. -/
theorem test_logo_last_byte :
    after (withImageOf 0x150 (logoCells ++ [(0x133, State.reset.params.logoRef[47] ^^^ 0x80)]))
      0x70000000 = some (0x1234, 0x43) := by decide

/-- V-MAG-1 and V-MAG-2. -/
theorem test_magic : after imageN 0x80000000 = some (0x1234, 0x10) := by decide
theorem test_magic_short : after { imageN with imgLen := 15 } 0x80000000 = some (0x1234, 0x41) := by
  decide

/-- V-ILL-1: the all-zero word. -/
theorem test_illegal_word :
    after { State.reset with result := 0x1234 } 0x00000000 = some (0x1234, 0x47) := by decide

/-! ### The register port and reset -/

/-- A word access at a byte offset from `REG_BASE`. -/
def writeAt (n : Nat) (d : Word) : HostEvent := .write .word (State.reset.params.regBase + n) d

/-- The state after one step that serves an event. -/
def serveOne (s : State) (e : HostEvent) : Option State :=
  match step { s with pending := [e] } with
  | .next t => some t
  | .fault _ => none
  | .refused _ => none

/-- V-ST-1's last two steps: bit 6 clear has no effect, bit 6 set clears `ERRSEEN`. -/
theorem test_status_write :
    let s : State := { State.reset with status := Status.failure 0 }
    (serveOne s (writeAt 0x10 0x3F)).map (fun t => statusWord t.status) = some 0x40 ∧
      (serveOne s (writeAt 0x10 0x40)).map (fun t => statusWord t.status) = some 0x00 := by decide

/-- R25: bits [31:8] of the written word are ignored. -/
theorem test_src_write :
    (serveOne State.reset (writeAt 0x04 0xFFFFFF5A)).map (fun t => t.src) = some 0x5A := by decide

/-- R28: a host write to `RESULT` is ignored. -/
theorem test_result_write :
    (serveOne { State.reset with result := 7 } (writeAt 0x0C 0xFFFF)).map (fun t => t.result) =
      some 7 := by decide

/-- R230: while reset is asserted a command has no effect. -/
theorem test_command_in_reset :
    (serveOne { State.reset with inReset := true } (writeAt 0x00 0)).map (fun t => statusWord t.status) =
      some 0x00 := by decide

/-- R38: a halfword access, a misaligned one and one at offset 0x20 are refused. -/
theorem test_malformed_accesses :
    serveOne State.reset (.read .half 0x04) = none ∧ serveOne State.reset (.read .word 0x02) = none ∧
      serveOne State.reset (.read .word 0x20) = none := by decide

/-- The order of the cells and writes of 0x00 leave no trace: one image, one list. -/
theorem test_attach_canonical :
    memoryOfCells 16 [(7, 1), (3, 2), (7, 0), (20, 9)] = [(3, 2)] := by decide

/-! ### The assembler -/

/-- L1-1 and R82: `PUTA 4, 4, 0x3` is `wr VAL, 3` then 0x48C00000. -/
theorem test_assemble_puta :
    assembleLine State.reset.params "PUTA 4, 4, 0x3" =
      some [writeAt 0x08 3, writeAt 0x00 0x48C00000] := by decide

/-- R80: `EXTM 2, 2, 7` is 0x24400007. -/
theorem test_assemble_extm :
    assembleLine State.reset.params "EXTM 2, 2, 7" = some [writeAt 0x00 0x24400007] := by decide

/-- R80: decimal, and hexadecimal with `0x`; `g` is no digit. -/
theorem test_parse_number :
    parseNumber "19".toList = some 19 ∧ parseNumber "0xfF".toList = some 255 ∧
      parseNumber "1A".toList = none ∧ parseNumber "0xg".toList = none := by decide

/-- R80: the assembler refuses `EXT 6, 3` (P4 step 3). -/
theorem test_assemble_refuses : assembleLine State.reset.params "EXT 6, 3" = none := by decide

/-- R81, R82: `wr STATUS, 0x40` and its pseudo-instruction. -/
theorem test_assemble_wr :
    assembleLine State.reset.params "wr STATUS, 0x40" =
      assembleLine State.reset.params "CLRERR" := by decide

/-! ### Witnesses: for each statement with hypotheses, concrete values that meet them, each clause at the edges of its
range. They say nothing of a conclusion. -/

/-- A command word ends with a next state of which p holds. -/
def commandEnds (w : Word) (s : State) (p : State → Bool) : Bool :=
  match commandStep w s with
  | .next t => p t
  | .fault _ => false
  | .refused _ => false

theorem exists_of_commandEnds {w : Word} {s : State} {p : State → Bool}
    (h : commandEnds w s p = true) : ∃ t, commandStep w s = .next t ∧ p t = true := by
  unfold commandEnds at h
  split at h
  · exact ⟨_, by assumption, h⟩
  · cases h
  · cases h

/-- The Game Boy image P1 without its logo, valid for `HCK`. -/
def gbState : State := withImageOf 0x150 p1Cells

/-- An image of zero bytes beside a reference logo of zero bytes. -/
def zeroLogoState : State :=
  { withImageOf 0x150 [] with
    params := { State.reset.params with logoRef := Vector.replicate 48 0 } }

/-- `IMG_LEN` above what the image port can deliver. -/
def shortPortState : State := { State.reset with imgLen := 0xFFFFFFFF }

/-- A state whose next event is e. -/
def facing (s : State) (e : HostEvent) : State := { s with pending := [e] }

theorem witness_DecodeOfEncode :
    (Instr.extm 7 8 0xFFFF).wellFormed = true ∧ (Instr.ext 0 1).wellFormed = true ∧
      (Instr.enc 7 1).wellFormed = true ∧ (Instr.enca 0 8).wellFormed = true ∧
      Instr.hck.wellFormed = true := by decide

theorem witness_EncodeOfDecode :
    decode 0x2FC0FFFF = .command (.extm 7 8 0xFFFF) ∧ decode 0x10000000 = .command (.ext 0 1) := by
  decide

theorem witness_OpcodeRowsDecide :
    (∀ r ∈ opcodeTable, r.pattern &&& r.mask = r.pattern) ∧
      (∀ r ∈ opcodeTable, (0xF0000000 : Word) &&& r.mask ≠ r.pattern) := by decide

theorem witness_IllegalWordsRunAsIllegalCommand :
    decode 0x0FFFFFFF = .illegal .opcode ∧ decode 0x90000000 = .illegal .opcode ∧
      decode 0x10000001 = .illegal .reserved ∧ decode 0x40200000 = .illegal .reserved ∧
      decode 0x20010000 = .illegal .reserved ∧ decode 0x20200000 = .illegal .reserved ∧
      decode 0x50000001 = .illegal .reserved ∧ decode 0x88000000 = .illegal .reserved := by decide

theorem witness_AssemblerWords :
    (∀ d ∈ [(0, 1), (0, 8), (7, 1)], d.1 ≤ 7 ∧ 1 ≤ d.2 ∧ d.2 ≤ 8 ∧ d.1 + d.2 ≤ 8) ∧
      (∀ d ∈ [(0, 0), (0, 9), (1, 8), (7, 2), (8, 0), (8, 1)],
        ¬(d.1 ≤ 7 ∧ 1 ≤ d.2 ∧ d.2 ≤ 8 ∧ d.1 + d.2 ≤ 8)) ∧
      0xFFFF ≤ 0xFFFF ∧ ¬(0x10000 ≤ 0xFFFF) := by decide

theorem witness_FieldBits : 7 + 1 ≤ 8 ∧ 0 + 8 ≤ 8 ∧ 8 + 0 ≤ 8 := by decide

theorem witness_FieldTruncation :
    0 + 8 ≤ 8 ∧ 7 + 1 ≤ 8 ∧ ∃ k, 4 ≤ k ∧ (0x10 : Byte).getLsbD k = true := by
  exact ⟨by decide, by decide, 4, by decide, by decide⟩

theorem witness_FieldRoundTripLaws : (1 ≤ 1 ∧ 7 + 1 ≤ 8) ∧ (1 ≤ 8 ∧ 0 + 8 ≤ 8) := by decide

theorem witness_FieldPackingLaw :
    (1 ≤ 4 ∧ 0 + 4 ≤ 8 ∧ 1 ≤ 4 ∧ 4 + 4 ≤ 8 ∧ (0 + 4 ≤ 4 ∨ 4 + 4 ≤ 0)) ∧
      (1 ≤ 1 ∧ 7 + 1 ≤ 8 ∧ 1 ≤ 7 ∧ 0 + 7 ≤ 8 ∧ (7 + 1 ≤ 0 ∨ 0 + 7 ≤ 7)) := by decide

theorem witness_ExtExtractsFieldOfSrc : (1 ≤ 1 ∧ 7 + 1 ≤ 8) ∧ (1 ≤ 8 ∧ 0 + 8 ≤ 8) := by decide

theorem witness_ExtmExtractsFieldOfImageByte :
    (1 ≤ 2 ∧ 2 + 2 ≤ 8 ∧ 15 ≤ 0xFFFF ∧ 15 < imageN.imgLen.toNat ∧ 15 < imageN.image.size) ∧
      (1 ≤ 8 ∧ 0 + 8 ≤ 8 ∧ 0xFFFF ≤ 0xFFFF ∧ 0xFFFF < (withImageOf 0x10000 []).imgLen.toNat ∧
        0xFFFF < (withImageOf 0x10000 []).image.size) := by decide

theorem witness_EncEncodesVal : (1 ≤ 1 ∧ 7 + 1 ≤ 8) ∧ (1 ≤ 8 ∧ 0 + 8 ≤ 8) := by decide

theorem witness_EncaOrsValIntoResult : (1 ≤ 1 ∧ 7 + 1 ≤ 8) ∧ (1 ≤ 8 ∧ 0 + 8 ≤ 8) := by decide

theorem witness_HckVerifiesHeaderChecksum :
    (0x150 ≤ gbState.imgLen.toNat ∧ 0x14E ≤ gbState.image.size) ∧
      (let s : State := { withImageOf 0x14E [] with imgLen := 0x150 }
       0x150 ≤ s.imgLen.toNat ∧ 0x14E ≤ s.image.size) := by decide

theorem witness_GckReadsGlobalChecksum :
    0x150 ≤ gbState.imgLen.toNat ∧ 0x150 ≤ gbState.image.size := by decide

/-- Both clauses: a logo that matches, and one that differs in its first and its last byte. -/
theorem witness_LogoComparesLogoRegion :
    (0x150 ≤ zeroLogoState.imgLen.toNat ∧ 0x134 ≤ zeroLogoState.image.size ∧
      ∀ (k : Nat) (_ : k < 48),
        memoryRead zeroLogoState.image.bytes (0x104 + k) = zeroLogoState.params.logoRef[k]) ∧
    (0x150 ≤ gbState.imgLen.toNat ∧ 0x134 ≤ gbState.image.size ∧
      memoryRead gbState.image.bytes (0x104 + 0) ≠ gbState.params.logoRef[0] ∧
      memoryRead gbState.image.bytes (0x104 + 47) ≠ gbState.params.logoRef[47]) := by decide

theorem witness_MagicComparesFirstFourBytes :
    (16 ≤ imageN.imgLen.toNat ∧ 4 ≤ imageN.image.size) ∧
      (let s : State := { withImageOf 4 [] with imgLen := 16 }
       16 ≤ s.imgLen.toNat ∧ 4 ≤ s.image.size) := by decide

/-- Each branch of the word statements of format B: an `OP`, a reserved bit, an invalid descriptor, a valid one. -/
theorem witness_ExtWord :
    (0x14800000 : Word).extractLsb' 28 4 = 0x1 ∧
      ((0x10000001 : Word).extractLsb' 28 4 = 0x1 ∧ (0x10000001 : Word).extractLsb' 0 22 ≠ 0) ∧
      ((0x1FC00000 : Word).extractLsb' 28 4 = 0x1 ∧
        8 < ((0x1FC00000 : Word).extractLsb' 25 3).toNat +
          (((0x1FC00000 : Word).extractLsb' 22 3).toNat + 1)) := by decide

/-- The four ways `EXTM` ends beside its success: reserved bit, descriptor, range, no byte at the port. -/
theorem witness_ExtmWord :
    (0x24400007 : Word).extractLsb' 28 4 = 0x2 ∧
      ((0x20010000 : Word).extractLsb' 28 4 = 0x2 ∧ (0x20010000 : Word).extractLsb' 16 6 ≠ 0) ∧
      ((0x2E400000 : Word).extractLsb' 28 4 = 0x2 ∧
        8 < ((0x2E400000 : Word).extractLsb' 25 3).toNat +
          (((0x2E400000 : Word).extractLsb' 22 3).toNat + 1)) ∧
      imageN.imgLen.toNat ≤ ((0x21C00010 : Word).extractLsb' 0 16).toNat ∧
      (¬ shortPortState.imgLen.toNat ≤ ((0x21C00000 : Word).extractLsb' 0 16).toNat ∧
        shortPortState.image.size ≤ ((0x21C00000 : Word).extractLsb' 0 16).toNat) := by decide

theorem witness_EncWord : (0x34800000 : Word).extractLsb' 28 4 = 0x3 := by decide

theorem witness_EncaWord :
    (0x48C00000 : Word).extractLsb' 28 4 = 0x4 ∧
      ∃ t u, commandStep 0x48C00000 State.reset = .next t ∧ commandStep 0x48C00000 t = .next u :=
  ⟨by decide, _, _, rfl, rfl⟩

theorem witness_HckWord :
    (0x50000000 : Word).extractLsb' 28 4 = 0x5 ∧ (0x5FFFFFFF : Word).extractLsb' 28 4 = 0x5 := by
  decide

theorem witness_GckWord : (0x60000000 : Word).extractLsb' 28 4 = 0x6 := by decide

theorem witness_LogoWord : (0x70000000 : Word).extractLsb' 28 4 = 0x7 := by decide

theorem witness_MagicWord : (0x80000000 : Word).extractLsb' 28 4 = 0x8 := by decide

theorem witness_InvalidDescriptorEndsWithDescriptorError : 8 < 7 + 2 ∧ 8 < 1 + 8 := by decide

/-- The four clauses, the length ones one byte short and just long enough. -/
theorem witness_ErrorPriority :
    decode 0 = .illegal .opcode ∧
    (decode 0x1E400000 = .command (.ext 7 2) ∧ descriptorFits (.ext 7 2) = false) ∧
    (decode 0x60000000 = .command .gck ∧ descriptorFits .gck = true ∧
      (withImageOf 0x14F []).imgLen.toNat < lengthNeeded .gck) ∧
    (decode 0x21C00010 = .command (.extm 0 8 16) ∧ descriptorFits (.extm 0 8 16) = true ∧
      imageN.imgLen.toNat < lengthNeeded (.extm 0 8 16)) ∧
    (decode 0x21C0000F = .command (.extm 0 8 15) ∧ descriptorFits (.extm 0 8 15) = true ∧
      lengthNeeded (.extm 0 8 15) ≤ imageN.imgLen.toNat ∧
      ∃ t, commandStep 0x21C0000F imageN = .next t) :=
  ⟨by decide, by decide, by decide, by decide, by decide, by decide, by decide, _, rfl⟩

/-- A command that ends with each code of R200, 0 to 7. -/
theorem witness_ErrorCodesHaveTheirCauses :
    (∃ t, commandStep 0x14800000 State.reset = .next t ∧ decide (t.status.err = 0) = true) ∧
    (∃ t, commandStep 0x60000000 State.reset = .next t ∧ decide (t.status.err = 1) = true) ∧
    (∃ t, commandStep 0x80000000 gbState = .next t ∧ decide (t.status.err = 2) = true) ∧
    (∃ t, commandStep 0x70000000 gbState = .next t ∧ decide (t.status.err = 3) = true) ∧
    (∃ t, commandStep 0x50000000 zeroLogoState = .next t ∧ decide (t.status.err = 4) = true) ∧
    (∃ t, commandStep 0x1E400000 State.reset = .next t ∧ decide (t.status.err = 5) = true) ∧
    (∃ t, commandStep 0x21C00010 imageN = .next t ∧ decide (t.status.err = 6) = true) ∧
    (∃ t, commandStep 0x00000000 State.reset = .next t ∧ decide (t.status.err = 7) = true) := by
  refine ⟨exists_of_commandEnds ?_, exists_of_commandEnds ?_, exists_of_commandEnds ?_,
    exists_of_commandEnds ?_, exists_of_commandEnds ?_, exists_of_commandEnds ?_,
    exists_of_commandEnds ?_, exists_of_commandEnds ?_⟩ <;> decide

theorem witness_WhatAnErrorWrites :
    ∃ t, commandStep 0x50000000 zeroLogoState = .next t ∧ decide (t.status.err ≠ 0) = true :=
  exists_of_commandEnds (by decide)

/-- Error 4, error 1, and an error that changed `RESULT`. -/
theorem witness_HckLeavesComputedChecksum :
    (∃ t, exec .hck zeroLogoState = .next t ∧ t.status.err = 4) ∧
    (∃ t, exec .hck State.reset = .next t ∧ t.status.err = 1) ∧
    (∃ t, commandStep 0x50000000 zeroLogoState = .next t ∧
      decide (t.status.err ≠ 0 ∧ t.result ≠ zeroLogoState.result) = true) :=
  ⟨⟨_, rfl, by decide⟩, ⟨_, rfl, by decide⟩, exists_of_commandEnds (by decide)⟩

/-- A comparison that matched, and one that did not. -/
theorem witness_CkokOnlyAfterMatch :
    (∃ t, commandStep 0x50000000 gbState = .next t ∧ t.status.ckok = true) ∧
      (∃ t, commandStep 0x80000000 gbState = .next t ∧ (!t.status.ckok) = true) :=
  ⟨exists_of_commandEnds (by decide), exists_of_commandEnds (by decide)⟩

/-- A set bit lost, and none. -/
theorem witness_TruncOnlyAfterLoss :
    (∃ t, commandStep 0x30000000 { State.reset with val := 0x80 } = .next t ∧
      t.status.trunc = true) ∧
    (∃ t, commandStep 0x31C00000 { State.reset with val := 0x80 } = .next t ∧
      (!t.status.trunc) = true) :=
  ⟨exists_of_commandEnds (by decide), exists_of_commandEnds (by decide)⟩

/-- A command that sets `ERRSEEN`, and each of the three events that clear it. -/
theorem witness_ErrSeenIsSticky :
    (∃ t, commandStep 0 State.reset = .next t) ∧
    (∀ e ∈ [HostEvent.assertReset, writeAt 0x10 0x40],
      ∃ t, step (facing { State.reset with status := Status.failure 7 } e) = .next t ∧
        t.status.errSeen = false) ∧
    (∃ t, step (facing { State.reset with status := Status.failure 7, inReset := true }
      .releaseReset) = .next t ∧ t.status.errSeen = false) := by
  refine ⟨⟨_, rfl⟩, ?_, ⟨_, rfl, rfl⟩⟩
  intro e he
  simp only [List.mem_cons, List.not_mem_nil, or_false] at he
  obtain rfl | rfl := he <;> exact ⟨_, rfl, by decide⟩

theorem witness_EveryCommandEnds : LengthDuty gbState ∧ LengthDuty State.reset := by decide

/-- A refusal with its cause, and a byte that a command reads. -/
theorem witness_RefusedExactlyForMissingByte :
    exec .magic shortPortState = .refused .noImageByte ∧
    (descriptorFits .magic = true ∧ lengthNeeded .magic ≤ shortPortState.imgLen.toNat ∧
      0 ∈ commandReads .magic ∧ shortPortState.image.size ≤ 0) ∧
    0x14D ∈ commandReads .hck := ⟨rfl, by decide, by decide⟩

/-- Two states that differ in the image byte next to the one read, in a status flag and in the host's side. -/
theorem witness_WritesDependOnlyOnNamedInputs :
    let t : State :=
      { imageN with
        image := { imageN.image with bytes := memoryWrite imageN.image.bytes 8 0x77 }
        status := { imageN.status with ckok := true }, readData := 5, pending := [.assertReset] }
    imageN.src = t.src ∧ imageN.val = t.val ∧ imageN.result = t.result ∧
      imageN.status.errSeen = t.status.errSeen ∧ imageN.imgLen = t.imgLen ∧
      imageN.params = t.params ∧ decode 0x24400007 = .command (.extm 2 2 7) ∧
      (∀ a ∈ commandReads (.extm 2 2 7), imageByte imageN.image a = imageByte t.image a) ∧
      imageN ≠ t := by decide

theorem witness_CommandIsIdempotent : ∃ t, commandStep 0x24400007 imageN = .next t := ⟨_, rfl⟩

/-- The invariant holds of a state with an image and an error, and of one in reset; both have a next state. -/
theorem witness_StepKeepsInvariant :
    ({ imageN with status := Status.failure 7 } : State).Inv ∧
    ({ State.reset with inReset := true } : State).Inv ∧
    (∃ t, step ({ imageN with status := Status.failure 7 }.withFetchWord 32 0x24400007) = .next t) ∧
    (∃ t, step (facing { State.reset with inReset := true } (writeAt 0x04 1)) = .next t) := by
  refine ⟨?_, ?_, ⟨_, rfl⟩, ⟨_, rfl⟩⟩ <;>
    (unfold State.Inv Status.consistent resetHolds; decide)

/-- The first and the last word of the block, the release of reset, and a release with none asserted. -/
theorem witness_ResetIgnoresHostAndClears :
    (let s : State := { State.reset with inReset := true }
     s.inReset = true ∧
     (0x00 % 4 = 0 ∧ (facing s (.read .word (s.params.regBase + 0x00))).pending =
       [.read .word ((facing s (.read .word (s.params.regBase + 0x00))).params.regBase + 0x00)]) ∧
     (0x1C % 4 = 0 ∧ 0x1C < 0x20 ∧ (facing s (writeAt 0x1C 1)).pending =
       [.write .word ((facing s (writeAt 0x1C 1)).params.regBase + 0x1C) 1]) ∧
     (facing s .releaseReset).pending = [.releaseReset]) ∧
    ((facing imageN .releaseReset).inReset = false ∧
      (facing imageN .releaseReset).pending = [.releaseReset]) := by decide

theorem witness_AssertingResetClearsRegisters :
    (facing imageN .assertReset).pending = [.assertReset] := by decide

/-- An idle state, and for each clause a step that changes what it speaks of. -/
theorem witness_OnlyNamedEventsChangeRegisters :
    imageN.pending = [] ∧
    (∃ t, step (facing State.reset (writeAt 0x04 1)) = .next t ∧ t.src ≠ State.reset.src) ∧
    (∃ t, step (facing State.reset (writeAt 0x08 1)) = .next t ∧ t.val ≠ State.reset.val) ∧
    (∃ t, step (facing State.reset (writeAt 0x14 1)) = .next t ∧ t.imgLen ≠ State.reset.imgLen) ∧
    (∃ t, step (facing { State.reset with src := 1 } (writeAt 0x00 0x10000000)) = .next t ∧
      t.result ≠ State.reset.result) ∧
    (∃ t, step (facing State.reset (writeAt 0x00 0)) = .next t ∧
      t.status.err ≠ State.reset.status.err ∧ t.status.errSeen ≠ State.reset.status.errSeen) ∧
    (∃ t, step (facing { State.reset with status := Status.failure 7 } (writeAt 0x10 0x40)) = .next t ∧
      t.status.errSeen ≠ true) ∧
    (∃ t, step (facing State.reset .assertReset) = .next t ∧ t.inReset ≠ State.reset.inReset) ∧
    (∃ t, step (facing State.reset (.attachImage 1 [])) = .next t ∧ t.image ≠ State.reset.image) ∧
    (∃ t, step (facing imageN (.read .word (imageN.params.regBase + 0x14))) = .next t ∧
      t.readData ≠ imageN.readData) :=
  ⟨rfl, ⟨_, rfl, by decide⟩, ⟨_, rfl, by decide⟩, ⟨_, rfl, by decide⟩, ⟨_, rfl, by decide⟩,
    ⟨_, rfl, by decide⟩, ⟨_, rfl, by decide⟩, ⟨_, rfl, by decide⟩, ⟨_, rfl, by decide⟩,
    ⟨_, rfl, by decide⟩⟩

/-- A read of each of the eight words. -/
theorem witness_PortReadsRegisters :
    ∀ n ∈ [0x00, 0x04, 0x08, 0x0C, 0x10, 0x14, 0x18, 0x1C],
      let s := facing State.reset (.read .word (State.reset.params.regBase + n))
      s.inReset = false ∧ n % 4 = 0 ∧ n < 0x20 ∧
        s.pending = [.read .word (s.params.regBase + n)] := by decide

/-- A write to each of the seven words that are not `CMD`. -/
theorem witness_PortWritesRegisters :
    ∀ n ∈ [0x04, 0x08, 0x0C, 0x10, 0x14, 0x18, 0x1C],
      let s := facing State.reset (writeAt n 0xFFFFFFFF)
      s.inReset = false ∧ n % 4 = 0 ∧ 0 < n ∧ n < 0x20 ∧
        s.pending = [.write .word (s.params.regBase + n) 0xFFFFFFFF] := by decide

theorem witness_StatusReservedBits :
    7 ≤ 7 ∧ (0x40 : Word).getLsbD 6 = (0xFFFFFFFF : Word).getLsbD 6 ∧
      (0x3F : Word).getLsbD 6 = (0 : Word).getLsbD 6 := by decide

theorem witness_ReadReturnsLastWrite :
    ∀ n ∈ [0x04, 0x08, 0x14],
      let s : State :=
        { State.reset with
          pending := [writeAt n 0x1FF, .read .word (State.reset.params.regBase + n)] }
      s.inReset = false ∧ (n = 0x04 ∨ n = 0x08 ∨ n = 0x14) ∧
        s.pending =
          [.write .word (s.params.regBase + n) 0x1FF, .read .word (s.params.regBase + n)] := by
  decide

/-- Both directions of the equivalence, for a read and for a write. -/
theorem witness_MalformedAccessIsRefused :
    step (facing State.reset (.read .byte 0)) = .refused .badAccess ∧
    step (facing State.reset (writeAt 0x20 0)) = .refused .badAccess ∧
    (∃ t, step (facing State.reset (writeAt 0x1C 0)) = .next t) ∧
    (∃ t, step (facing State.reset (.read .word 0)) = .next t) :=
  ⟨rfl, rfl, ⟨_, rfl⟩, ⟨_, rfl⟩⟩

theorem witness_SecondHostIsRefused : (facing State.reset .secondHost).pending = [.secondHost] := by
  decide

/-- A word that decodes, and an illegal one. -/
theorem witness_StepRunsDecodedCommand :
    (let s := facing State.reset (writeAt 0x00 0x50000000)
     s.inReset = false ∧ s.pending = [.write .word (s.params.regBase + 0x00) 0x50000000] ∧
       decode 0x50000000 = .command .hck) ∧
    (let s := facing State.reset (writeAt 0x00 0)
     s.inReset = false ∧ s.pending = [.write .word (s.params.regBase + 0x00) 0] ∧
       decode 0 = .illegal .opcode) := by decide

theorem witness_PlacedWordRunsNext :
    decodeTableWord 32 (0x50000000 : Word).toNat = some .hck ∧
      decodeTableWord 32 (0x2FC0FFFF : Word).toNat = some (.extm 7 8 0xFFFF) ∧
      decodeTableWord 32 (0 : Word).toNat = none ∧
      decodeTableWord 32 (0xFFFFFFFF : Word).toNat = none := by decide

/-- A safe run of two steps: `IMG_LEN` read, then a command. -/
theorem witness_SafeRunNeverStops :
    SafeRun 2
      { imageN with pending := [.read .word (imageN.params.regBase + 0x14), writeAt 0x00 0x80000000] } := by
  refine ⟨(by decide : (portReg imageN.params .word _).isSome = true), fun t ht => ?_⟩
  injection ht with ht
  subst ht
  exact ⟨⟨by decide, fun _ _ => (by decide : LengthDuty imageN)⟩, fun _ _ => trivial⟩

theorem witness_ChecksumClosedForm :
    (List.replicate 25 (0xFF : Byte)).length = 25 ∧ [(1 : Byte), 2].Perm [2, 1] :=
  ⟨by decide, .swap 2 1 []⟩

/-- P1's image with the last byte of the checksum region changed. -/
def changedImage : Image :=
  { gbState.image with bytes := memoryWrite gbState.image.bytes 0x14C 0x01 }

/-- P1's image with the first two bytes of the region exchanged. -/
def exchangedImage : Image :=
  { gbState.image with
    bytes := memoryWrite (memoryWrite gbState.image.bytes 0x134 0x45) 0x135 0x54 }

/-- P1 passes; one image differs from it in the last byte of the region, and one has the same sum. -/
theorem witness_ChecksumDetectsOneByteChange :
    (∃ t, exec .hck gbState = .next t ∧ t.status.ckok = true) ∧
    (changedImage.size = gbState.image.size ∧
      memoryRead changedImage.bytes 0x14D = memoryRead gbState.image.bytes 0x14D ∧
      memoryRead changedImage.bytes 0x14C ≠ memoryRead gbState.image.bytes 0x14C ∧
      ∀ x, x < 0x14D → 0x134 ≤ x → x ≠ 0x14C →
        memoryRead changedImage.bytes x = memoryRead gbState.image.bytes x) ∧
    (exchangedImage.size = gbState.image.size ∧ exchangedImage ≠ gbState.image ∧
      memoryRead exchangedImage.bytes 0x14D = memoryRead gbState.image.bytes 0x14D ∧
      ((List.range' 0x134 25).map (fun a => (memoryRead exchangedImage.bytes a).toNat)).sum % 256 =
        ((List.range' 0x134 25).map (fun a => (memoryRead gbState.image.bytes a).toNat)).sum % 256) := by
  refine ⟨⟨_, rfl, by decide⟩, ⟨by decide, by decide, by decide, ?_⟩, by decide⟩
  intro x hx hlo hne
  obtain ⟨k, rfl⟩ : ∃ k, x = 0x134 + k := ⟨x - 0x134, by omega⟩
  have hk : k < 24 := by omega
  exact (by decide : ∀ k, k < 24 →
    memoryRead changedImage.bytes (0x134 + k) = memoryRead gbState.image.bytes (0x134 + k)) k hk

/-- Lists of one length, and two different images that both fail the comparison. -/
theorem witness_ComparisonReportsOnlyVerdict :
    [(1 : Byte)].length = [(2 : Byte)].length ∧
    (∃ t, commandStep 0x70000000
        { zeroLogoState with image := { size := 0x150, bytes := [(0x104, 1)] } } = .next t ∧
      (!t.status.ckok) = true) ∧
    (∃ t, commandStep 0x70000000
        { zeroLogoState with image := { size := 0x150, bytes := [(0x133, 0x80)] } } = .next t ∧
      (!t.status.ckok) = true) :=
  ⟨by decide, exists_of_commandEnds (by decide), exists_of_commandEnds (by decide)⟩

theorem witness_AttachedImageReadsAsListed :
    15 < 16 ∧ 16 ≤ 16 ∧
      (facing State.reset (.attachImage 16 [(15, 1)])).pending = [.attachImage 16 [(15, 1)]] := by
  decide

theorem witness_FormatSelectorDecidesNes20 : 7 < imageN.imgLen.toNat ∧ 7 < imageN.image.size := by
  decide

end Sys2Proof.Tests
end

section
/-! SUPPORT. The invariant of the machine, operation by operation: `STATUS` stays one that commands can leave, reset
holds the registers, and so every step keeps `State.Inv`. -/

namespace Sys2Proof.Machine

theorem Status.reset_consistent : Status.reset.consistent := by
  unfold Status.consistent
  decide

/-- The end of a command leaves a consistent `STATUS` when its code is not reserved and its flags are those of a
success (R31, R32, R200). -/
theorem statusAfter_consistent (t : Status) {e : BitVec 4} {c u : Bool} (hcode : e ≤ 7)
    (hclean : e ≠ 0 → c = false ∧ u = false) (hexcl : ¬(c = true ∧ u = true)) :
    (statusAfter t e c u).consistent := by
  refine ⟨hcode, fun hc => ?_, fun hu => ?_, hexcl⟩
  · by_contra he
    exact absurd ((hclean he).1.symm.trans hc) (by decide)
  · by_contra he
    exact absurd ((hclean he).2.symm.trans hu) (by decide)

/-- A host write to `STATUS` touches no field that consistency speaks of (R34). -/
theorem statusHostWrite_consistent {t : Status} (h : t.consistent) (data : Word) :
    (statusHostWrite t data).consistent := by
  simpa [Status.consistent] using h

/-- With reset released the invariant asks nothing of the registers but a consistent `STATUS`. -/
theorem inv_of_released {s : State} (himage : s.image.wf) (hstatus : s.status.consistent)
    (hreset : s.inReset = false) : s.Inv :=
  ⟨himage, hstatus, fun h => absurd (hreset.symm.trans h) (by decide)⟩

theorem raiseReset_inv {s : State} (h : s.Inv) : (raiseReset s).Inv := by
  obtain ⟨himage, -, -⟩ := h
  exact ⟨himage, Status.reset_consistent, fun _ => ⟨rfl, rfl, rfl, rfl, rfl⟩⟩

theorem lowerReset_inv {s : State} (h : s.Inv) : (lowerReset s).Inv := by
  cases hreset : s.inReset
  · rwa [lowerReset_of_not_inReset s hreset]
  · obtain ⟨himage, -, -⟩ := h
    rw [lowerReset_of_inReset s hreset]
    exact inv_of_released himage Status.reset_consistent rfl

theorem attachTo_inv {s : State} (h : s.Inv) (size : Nat) (cells : List Host.Cell) :
    (attachTo s size cells).Inv := by
  obtain ⟨-, hstatus, hregs⟩ := h
  exact ⟨memoryOfCells_wf size cells, hstatus, hregs⟩

theorem storeRegister_inv {s : State} (h : s.Inv) (hreset : s.inReset = false) (r : PortReg)
    (data : Word) : (storeRegister s r data).Inv := by
  have ⟨himage, hstatus, _⟩ := h
  cases r with
  | src | val | imgLen => exact inv_of_released himage hstatus hreset
  | status => exact inv_of_released himage (statusHostWrite_consistent hstatus data) hreset
  | cmd | result | rsv18 | rsv1C => exact h

theorem commandStep_inv {s t : State} {w : Word} (h : s.Inv) (hreset : s.inReset = false)
    (hstep : commandStep w s = .next t) : t.Inv := by
  obtain ⟨himage, -, -⟩ := h
  obtain ⟨r, e, c, u, rfl, hcode, hclean, hexcl⟩ := commandStep_next hstep
  exact inv_of_released himage (statusAfter_consistent _ hcode hclean hexcl) hreset

/-- Serving any event keeps the invariant. -/
theorem serve_inv {e : HostEvent} {s t : State} (h : s.Inv) (hserve : serve e s = .next t) :
    t.Inv := by
  rcases serve_next hserve with ⟨_, _, _, -, -, rfl⟩ | ⟨_, _, _, _, -, -, -, rfl⟩ |
    ⟨_, _, data, -, -, hreset, hcmd⟩ | ⟨_, _, data, r, -, -, -, hreset, rfl⟩ | ⟨-, rfl⟩ |
    ⟨-, rfl⟩ | ⟨size, cells, -, rfl⟩
  · exact h
  · exact h
  · exact commandStep_inv h hreset hcmd
  · exact storeRegister_inv h hreset r data
  · exact raiseReset_inv h
  · exact lowerReset_inv h
  · exact attachTo_inv h size cells

/-- Settles O39: an idle step changes nothing, and serving the oldest event keeps the invariant, which does not
speak of the events still to come. -/
theorem stepKeepsInvariant : Obligations.StepKeepsInvariant := by
  intro s t h hstep
  cases hp : s.pending with
  | nil =>
    rw [step_of_idle hp] at hstep
    injection hstep with hstep
    exact hstep ▸ h
  | cons e rest =>
    rw [step_of_pending hp] at hstep
    have hrest : ({ s with pending := rest } : State).Inv := h
    exact serve_inv hrest hstep

/-- Settles O40: no image is attached at reset and `STATUS` holds its reset value. -/
theorem resetHasInvariant : Obligations.ResetHasInvariant :=
  inv_of_released ⟨⟨List.Pairwise.nil, by simp [State.reset]⟩, by simp [State.reset]⟩
    Status.reset_consistent rfl

/-- Settles O41: the fields of `State.reset` are those of R44. -/
theorem resetValues : Obligations.ResetValues := ⟨rfl, rfl, rfl, rfl, rfl, rfl, rfl, rfl⟩

end Sys2Proof.Machine
end

section
/-! SUPPORT. What a command leaves in `CKOK`, `TRUNC` and `ERRSEEN`, said once for all eight, check by check. -/

namespace Sys2Proof.Machine

/-- The commands that compare image bytes with a reference (R31). -/
def comparesImage : Instr → Bool
  | .ext _ _ | .extm _ _ _ | .enc _ _ | .enca _ _ | .gck => false
  | .hck | .logo | .magic => true

theorem comparesImage_iff (i : Instr) :
    comparesImage i = true ↔ i = .hck ∨ i = .logo ∨ i = .magic := by
  cases i <;> simp [comparesImage]

/-- Encoding a value under a valid descriptor loses one of its set bits (R103, R120, R125). -/
def losesBits (v : Byte) : Instr → Bool
  | .enc off width | .enca off width => descriptorValid off width && fieldTruncates v width
  | .ext _ _ | .extm _ _ _ | .hck | .gck | .logo | .magic => false

theorem losesBits_iff (v : Byte) (i : Instr) :
    losesBits v i = true ↔
      ∃ off width, (i = .enc off width ∨ i = .enca off width) ∧ off + width ≤ 8 ∧ v >>> width ≠ 0 := by
  cases i <;> simp [losesBits, descriptorValid, fieldTruncates]

/-- If the command ends, `TRUNC` is `u`, and `CKOK` says whether a command that compares (`c`) ended without error. -/
def FlagsAre (c u : Bool) (o : Out) : Prop :=
  ∀ t, o = .next t → t.status.trunc = u ∧ t.status.ckok = (c && t.status.err == 0)

theorem raise_flags (c : Bool) (e : CmdError) (s : State) : FlagsAre c false (raise e s) := by
  rintro t ⟨⟩
  have hcode : (errorCode e == 0) = false := beq_eq_false_iff_ne.2 (errorCode_ne_zero e)
  simp only [endCommand_status, statusAfter_trunc, statusAfter_ckok, statusAfter_err, hcode,
    Bool.and_false, and_self]

theorem succeed_flags (c u : Bool) (s : State) : FlagsAre c u (succeed c u s) := by
  rintro t ⟨⟩
  simp [successCode]

theorem endComparison_flags (equal : Bool) (e : CmdError) (s : State) :
    FlagsAre true false (endComparison equal e s) := by
  cases equal
  · exact raise_flags true e s
  · exact succeed_flags true false s

theorem withDescriptor_flags {off width : Nat} {s : State} {c u v : Bool} {go : Out}
    (hu : u = (descriptorValid off width && v)) (h : FlagsAre c v go) :
    FlagsAre c u (withDescriptor off width s go) := by
  unfold withDescriptor
  cases hvalid : descriptorValid off width
  · rw [hu, hvalid]
    exact raise_flags c _ s
  · rw [hu, hvalid]
    exact h

theorem withHeader_flags {n : Nat} {s : State} {c : Bool} {go : Out} (h : FlagsAre c false go) :
    FlagsAre c false (withHeader n s go) := by
  unfold withHeader
  split
  · exact raise_flags c _ s
  · exact h

theorem withinImage_flags {a : Nat} {s : State} {c : Bool} {go : Out} (h : FlagsAre c false go) :
    FlagsAre c false (withinImage a s go) := by
  unfold withinImage
  split
  · exact raise_flags c _ s
  · exact h

theorem withImage_flags {a n : Nat} {s : State} {c u : Bool} {go : List Byte → Out}
    (h : ∀ bs, FlagsAre c u (go bs)) : FlagsAre c u (withImage a n s go) := by
  rcases withImage_cases a n s go with hrefused | ⟨bs, -, hgo⟩
  · rw [hrefused]
    rintro t ⟨⟩
  · rw [hgo]
    exact h bs

/-- What any command leaves in `CKOK` and `TRUNC`. -/
theorem exec_flags (i : Instr) (s : State) :
    FlagsAre (comparesImage i) (losesBits s.val i) (exec i s) := by
  cases i with
  | ext off width => exact withDescriptor_flags (Bool.and_false _).symm (succeed_flags _ _ _)
  | extm off width addr =>
    exact withDescriptor_flags (Bool.and_false _).symm
      (withinImage_flags (withImage_flags fun _ => succeed_flags _ _ _))
  | enc off width => exact withDescriptor_flags rfl (succeed_flags _ _ _)
  | enca off width => exact withDescriptor_flags rfl (succeed_flags _ _ _)
  | hck =>
    exact withHeader_flags (withImage_flags fun _ => withImage_flags fun _ =>
      endComparison_flags _ _ _)
  | gck => exact withHeader_flags (withImage_flags fun _ => succeed_flags _ _ _)
  | logo => exact withHeader_flags (withImage_flags fun _ => endComparison_flags _ _ _)
  | magic => exact withHeader_flags (withImage_flags fun _ => endComparison_flags _ _ _)

theorem commandStep_of_command {w : Word} {i : Instr} (h : decode w = .command i) (s : State) :
    commandStep w s = exec i s := by
  simp [commandStep, h]

theorem commandStep_of_illegal {w : Word} {why : Illegal} (h : decode w = .illegal why) (s : State) :
    commandStep w s = .next { s with status := Status.failure 7 } := by
  simp only [commandStep, h, execIllegal, raise_eq, endCommand, statusAfter_error]
  rfl

/-- Settles O32: an illegal word ends with error 7, and `exec_flags` gives `CKOK` of a command. -/
theorem ckokOnlyAfterMatch : Obligations.CkokOnlyAfterMatch := by
  intro w s t h
  cases hw : decode w with
  | command i =>
    rw [commandStep_of_command hw] at h
    obtain ⟨-, hckok⟩ := exec_flags i s t h
    simp only [hckok, Bool.and_eq_true, beq_iff_eq, comparesImage_iff, Decoded.command.injEq]
  | illegal why =>
    rw [commandStep_of_illegal hw] at h
    cases h
    simp [Status.failure]

/-- Settles O33: an illegal word clears `TRUNC`, and `exec_flags` gives `TRUNC` of a command. -/
theorem truncOnlyAfterLoss : Obligations.TruncOnlyAfterLoss := by
  intro w s t h
  cases hw : decode w with
  | command i =>
    rw [commandStep_of_command hw] at h
    obtain ⟨htrunc, -⟩ := exec_flags i s t h
    simp only [htrunc, losesBits_iff, Decoded.command.injEq]
  | illegal why =>
    rw [commandStep_of_illegal hw] at h
    cases h
    simp [Status.failure]

/-- Every command sets `ERRSEEN` if it ends with an error and leaves it otherwise (R33, R90). -/
theorem commandStep_errSeen {w : Word} {s t : State} (h : commandStep w s = .next t) :
    t.status.errSeen = (s.status.errSeen || t.status.err != 0) := by
  obtain ⟨r, e, c, u, rfl, -⟩ := commandStep_next h
  rfl

end Sys2Proof.Machine
end

section
/-! SUPPORT. The register port: which accesses name a word of the block, what a step that serves one answers, and the
layout of `STATUS`. -/

namespace Sys2Proof.Machine

/-! ### The eight words -/

/-- The aligned offsets below 0x20 are those of the eight words (R24). -/
theorem exists_regOffset {n : Nat} (hal : n % 4 = 0) (hlt : n < 0x20) : ∃ r, n = regOffset r := by
  obtain rfl | rfl | rfl | rfl | rfl | rfl | rfl | rfl :
      n = 0x00 ∨ n = 0x04 ∨ n = 0x08 ∨ n = 0x0C ∨ n = 0x10 ∨ n = 0x14 ∨ n = 0x18 ∨ n = 0x1C := by
    omega
  exacts [⟨.cmd, rfl⟩, ⟨.src, rfl⟩, ⟨.val, rfl⟩, ⟨.result, rfl⟩, ⟨.status, rfl⟩, ⟨.imgLen, rfl⟩,
    ⟨.rsv18, rfl⟩, ⟨.rsv1C, rfl⟩]

theorem regOffset_aligned (r : PortReg) : regOffset r % 4 = 0 ∧ regOffset r < 0x20 := by
  cases r <;> decide

/-- The accesses that name no word are the malformed ones of R38. -/
theorem portReg_eq_none_iff (p : Params) (size : AccessSize) (addr : Nat) :
    portReg p size addr = none ↔
      ¬(size = .word ∧ ∃ n, n % 4 = 0 ∧ n < 0x20 ∧ addr = p.regBase + n) := by
  rw [← not_iff_not, not_not, ← ne_eq, Option.ne_none_iff_exists']
  constructor
  · rintro ⟨r, hr⟩
    obtain ⟨hsize, haddr⟩ := portReg_eq_some hr
    obtain ⟨hal, hlt⟩ := regOffset_aligned r
    exact ⟨hsize, _, hal, hlt, haddr⟩
  · rintro ⟨rfl, n, hal, hlt, rfl⟩
    obtain ⟨r, rfl⟩ := exists_regOffset hal hlt
    exact ⟨r, portReg_of_offset p r⟩

/-! ### The layout of `STATUS` -/

theorem toNat_append_add {m n : Nat} (x : BitVec m) (y : BitVec n) :
    (x ++ y).toNat = x.toNat * 2 ^ n + y.toNat := by
  rw [BitVec.toNat_append, ← Nat.shiftLeft_add_eq_or_of_lt y.isLt, Nat.shiftLeft_eq]

/-- `STATUS` as a number: `ERR` from bit 0, `CKOK` at bit 4, `TRUNC` at bit 5, `ERRSEEN` at bit 6 (R29). -/
theorem toNat_statusWord (t : Status) :
    (statusWord t).toNat =
      t.err.toNat + 16 * t.ckok.toNat + 32 * t.trunc.toNat + 64 * t.errSeen.toNat := by
  rw [statusWord, toNat_append_add, toNat_append_add, toNat_append_add, toNat_append_add]
  simp only [BitVec.toNat_ofNat, BitVec.toNat_ofBool]
  omega

theorem statusWord_getLsbD_of_ge (t : Status) {k : Nat} (hk : 7 ≤ k) :
    (statusWord t).getLsbD k = false := by
  have hlt : (statusWord t).toNat < 2 ^ 7 := by
    have := t.err.isLt
    have := t.ckok.toNat_le
    have := t.trunc.toNat_le
    have := t.errSeen.toNat_le
    rw [toNat_statusWord]
    omega
  exact Nat.testBit_eq_false_of_lt (hlt.trans_le (Nat.pow_le_pow_right (by decide) hk))

/-- A host write to `STATUS` as one record update (R33, R34). -/
theorem statusHostWrite_eq (t : Status) (d : Word) :
    statusHostWrite t d = { t with errSeen := t.errSeen && !d.getLsbD 6 } := by
  unfold statusHostWrite
  cases d.getLsbD 6 <;> simp

/-! ### A step that serves an access -/

/-- A read of a word changes nothing but the data read. -/
theorem step_read {s : State} {rest : List HostEvent} (r : PortReg)
    (h : s.pending = .read .word (s.params.regBase + regOffset r) :: rest) :
    step s = .next { s with pending := rest, readData := portRead s r } := by
  simp only [step_of_pending h, serve, portReg_of_offset]
  rfl

/-- A write to a word with reset released. -/
theorem step_write {s : State} {rest : List HostEvent} {d : Word} (r : PortReg)
    (hreset : s.inReset = false)
    (h : s.pending = .write .word (s.params.regBase + regOffset r) d :: rest) :
    step s = writeRegister r d { s with pending := rest } := by
  simp only [step_of_pending h, serve, portReg_of_offset, hreset, Bool.false_eq_true, if_false]

/-- The low byte of a word, as `SRC` and `VAL` keep it (R25, R26). -/
theorem extractLsb'_low (d : Word) : d.extractLsb' 0 8 = BitVec.ofNat 8 d.toNat := by
  rw [BitVec.ofNat_toNat, BitVec.setWidth_eq_extractLsb' (by decide)]

/-- What a host write stores, all words in one update. -/
theorem storeRegister_eq (s : State) (r : PortReg) (d : Word) :
    storeRegister s r d =
      { s with
        src := if r = .src then BitVec.ofNat 8 d.toNat else s.src
        val := if r = .val then BitVec.ofNat 8 d.toNat else s.val
        imgLen := if r = .imgLen then d else s.imgLen
        status := if r = .status then { s.status with errSeen := s.status.errSeen && !d.getLsbD 6 }
          else s.status } := by
  cases r <;> simp [storeRegister, extractLsb'_low, statusHostWrite_eq]

/-- A write to a word is never refused as malformed. -/
theorem writeRegister_ne_badAccess (r : PortReg) (d : Word) (s : State) :
    writeRegister r d s ≠ .refused .badAccess := by
  by_cases hr : r = .cmd
  · subst hr
    rw [writeRegister_cmd]
    rcases commandStep_outcome d s with h | ⟨_, _, _, _, h, -⟩ <;> simp [h]
  · simp [writeRegister_of_ne_cmd hr]

/-- An access is refused as malformed exactly where it names no word, reset asserted or not (R38). -/
theorem serve_read_badAccess_iff (size : AccessSize) (addr : Nat) (s : State) :
    serve (.read size addr) s = .refused .badAccess ↔ portReg s.params size addr = none := by
  cases h : portReg s.params size addr <;> simp [serve, h]

theorem serve_write_badAccess_iff (size : AccessSize) (addr : Nat) (d : Word) (s : State) :
    serve (.write size addr d) s = .refused .badAccess ↔ portReg s.params size addr = none := by
  cases h : portReg s.params size addr with
  | none => simp [serve, h]
  | some r =>
    cases hreset : s.inReset
    · simp [serve, h, hreset, writeRegister_ne_badAccess]
    · simp [serve, h, hreset]

/-- Settles O45: `step_read` gives the step, and the data is the register of the offset. -/
theorem portReadsRegisters : Obligations.PortReadsRegisters := by
  intro s rest n hreset hal hlt hp
  obtain ⟨r, rfl⟩ := exists_regOffset hal hlt
  refine ⟨portRead s r, step_read r hp, ?_⟩
  have hread : portRead s r = readRegister s r := by simp [portRead, hreset]
  rw [hread]
  cases r with
  | src | val | result =>
    simp (disch := omega) [regOffset, readRegister, Nat.mod_eq_of_lt]
  | cmd | status | imgLen | rsv18 | rsv1C => simp [regOffset, readRegister, toNat_statusWord]

/-- Settles O46: a write to a word other than `CMD` stores, and `storeRegister_eq` says what. -/
theorem portWritesRegisters : Obligations.PortWritesRegisters := by
  intro s rest n d hreset hal hpos hlt hp
  obtain ⟨r, rfl⟩ := exists_regOffset hal hlt
  have hne : r ≠ .cmd := by
    rintro rfl
    exact absurd hpos (by decide)
  rw [step_write r hreset hp, writeRegister_of_ne_cmd hne, storeRegister_eq]
  cases r <;> simp [regOffset]

/-- Settles O49: the access is refused as malformed iff it names no word, and those are the malformed ones. -/
theorem malformedAccessIsRefused : Obligations.MalformedAccessIsRefused := by
  intro s rest size addr e he hp
  rw [step_of_pending hp, ← portReg_eq_none_iff]
  rcases he with rfl | ⟨d, rfl⟩
  · exact serve_read_badAccess_iff size addr _
  · exact serve_write_badAccess_iff size addr d _

/-- Settles O47: the word is below 2^7 as a number, and `statusHostWrite_eq` names bit 6 alone. -/
theorem statusReservedBits : Obligations.StatusReservedBits := by
  refine ⟨fun t k hk => statusWord_getLsbD_of_ge t hk, fun t d d' h => ?_, fun t d => ?_⟩
  · rw [statusHostWrite_eq, statusHostWrite_eq, h]
  · exact ⟨statusHostWrite_err t d, statusHostWrite_ckok t d, statusHostWrite_trunc t d⟩

/-- Settles O43: serving the assertion is `raiseReset`. -/
theorem assertingResetClearsRegisters : Obligations.AssertingResetClearsRegisters := by
  intro s rest hp
  rw [step_of_pending hp]
  rfl

/-! ### A step that runs a command -/

/-- Settles O51: a write to `CMD` is the command step of its word. -/
theorem stepRunsDecodedCommand : Obligations.StepRunsDecodedCommand := by
  intro s rest w hreset hp
  have hstep : step s = commandStep w { s with pending := rest } := step_write .cmd hreset hp
  exact ⟨hstep, fun i hi => hstep.trans (commandStep_of_command hi _),
    fun why hwhy => hstep.trans (commandStep_of_illegal hwhy _)⟩

theorem ofNat_toNat_mod (w : Word) : BitVec.ofNat 32 (w.toNat % 2 ^ 32) = w := by
  rw [Nat.mod_eq_of_lt w.isLt, BitVec.ofNat_toNat, BitVec.setWidth_eq]

/-- A whole 32-bit word is read from the table as the decoder reads it. -/
theorem decodeTableWord_eq_some_iff (w : Word) (i : Instr) :
    decodeTableWord 32 w.toNat = some i ↔ decode w = .command i := by
  simp only [decodeTableWord, ofNat_toNat_mod, le_refl, if_true]
  cases decode w <;> simp

theorem decodeTableWord_eq_none_iff (w : Word) :
    decodeTableWord 32 w.toNat = none ↔ ∃ why, decode w = .illegal why := by
  simp only [decodeTableWord, ofNat_toNat_mod, le_refl, if_true]
  cases decode w <;> simp

/-- The placed word is the next write to `CMD`, and taking it gives the old pending events back. -/
theorem step_withFetchWord (s : State) (w : Word) :
    step (s.withFetchWord 32 w.toNat) = commandStep w { s with inReset := false } := by
  have hp : (s.withFetchWord 32 w.toNat).pending =
      .write .word (s.params.regBase + regOffset .cmd) w :: s.pending := by
    rw [State.withFetchWord, withCommandNext, ofNat_toNat_mod]
  exact step_write .cmd rfl hp

/-- Settles O52: the word placed is decoded as the table's word is, and `step_withFetchWord` runs it. -/
theorem placedWordRunsNext : Obligations.PlacedWordRunsNext := by
  intro s w
  refine ⟨step_withFetchWord s w, fun i hi => ?_, fun hnone => ?_⟩
  · exact (step_withFetchWord s w).trans
      (commandStep_of_command ((decodeTableWord_eq_some_iff w i).1 hi) _)
  · obtain ⟨why, hwhy⟩ := (decodeTableWord_eq_none_iff w).1 hnone
    exact (step_withFetchWord s w).trans (commandStep_of_illegal hwhy _)

end Sys2Proof.Machine
end

section
/-! SUPPORT. Which events change what, over every step. -/

namespace Sys2Proof.Machine

/-- While reset is asserted a write to a word has no effect (R230). -/
theorem step_write_of_inReset {s : State} {rest : List HostEvent} {d : Word} (r : PortReg)
    (hreset : s.inReset = true)
    (h : s.pending = .write .word (s.params.regBase + regOffset r) d :: rest) :
    step s = .next { s with pending := rest } := by
  simp only [step_of_pending h, serve, portReg_of_offset, hreset, if_true]

/-- Settles O44: `serve_next` names what each event can do; the address of an access is that of the word it names. -/
theorem onlyNamedEventsChangeRegisters : Obligations.OnlyNamedEventsChangeRegisters := by
  refine ⟨fun s hp => step_of_idle hp, fun s t e rest hp hstep => ?_⟩
  rw [step_of_pending hp] at hstep
  rcases serve_next hstep with ⟨size, addr, r, rfl, hr, rfl⟩ | ⟨size, addr, d, r, rfl, -, -, rfl⟩ |
    ⟨size, addr, d, rfl, hr, -, hcmd⟩ | ⟨size, addr, d, r, rfl, hr, hne, -, rfl⟩ | ⟨rfl, rfl⟩ |
    ⟨rfl, rfl⟩ | ⟨size, cells, rfl, rfl⟩
  · -- a read changes the read data
    obtain ⟨rfl, rfl⟩ := portReg_eq_some hr
    simp
  · -- a write during reset changes nothing
    simp
  · -- a command changes `RESULT` and `STATUS`
    obtain ⟨rfl, rfl⟩ := portReg_eq_some hr
    obtain ⟨v, code, c, u, rfl, -⟩ := commandStep_next hcmd
    simp [regOffset]
  · -- a store changes the one word it names
    obtain ⟨rfl, rfl⟩ := portReg_eq_some hr
    rw [storeRegister_eq]
    cases r <;> simp [regOffset] at hne ⊢
  · -- the reset input keeps image, read data, parameters and the events still to come
    simp
  · simp
  · -- an attachment changes the image
    simp

/-- Settles O34: of the events that `onlyNamedEventsChangeRegisters` lets change `ERRSEEN`, a write to `CMD` only ever
sets it. -/
theorem errSeenIsSticky : Obligations.ErrSeenIsSticky := by
  refine ⟨fun w s t h => commandStep_errSeen h, fun s t e rest hp hstep hset hclear => ?_⟩
  have hne : t.status.errSeen ≠ s.status.errSeen := by
    rw [hset, hclear]
    decide
  obtain ⟨-, hnamed⟩ := onlyNamedEventsChangeRegisters
  obtain ⟨-, -, -, -, -, herrSeen, -⟩ := hnamed s t e rest hp hstep
  rcases herrSeen hne with he | he | ⟨d, rfl⟩ | he
  · exact .inl he
  · exact .inr (.inl he)
  · cases hreset : s.inReset
    · rw [step_write .cmd hreset hp, writeRegister_cmd] at hstep
      have h := commandStep_errSeen hstep
      simp [hset, hclear] at h
    · rw [step_write_of_inReset .cmd hreset hp] at hstep
      cases hstep
      exact absurd rfl hne
  · exact .inr (.inr he)

end Sys2Proof.Machine
end

section
/-! SUPPORT. What an attached image reads as. -/

namespace Sys2Proof.Machine

/-- A cell listed at or above the size is dropped (log 3). -/
theorem memoryOfCells_append_dropped {n : Nat} (cells : List Host.Cell) {c : Host.Cell}
    (hc : n ≤ c.1) : memoryOfCells n (cells ++ [c]) = memoryOfCells n cells := by
  simp [memoryOfCells, Nat.not_lt.2 hc]

/-- The memory of listed cells reads below the size as the last cell listed for the address. -/
theorem memoryRead_memoryOfCells {n a : Nat} (ha : a < n) (cells : List Host.Cell) :
    memoryRead (memoryOfCells n cells) a =
      ((cells.reverse.find? fun c => c.1 == a).map fun c => c.2).getD 0x00 := by
  induction cells using List.reverseRecOn with
  | nil => rfl
  | append_singleton cells c ih =>
    rw [List.reverse_append, List.reverse_singleton, List.singleton_append, List.find?_cons]
    by_cases hca : c.1 = a
    · subst hca
      simp [memoryOfCells_append_single n cells c ha]
    · have hkept : memoryRead (memoryOfCells n (cells ++ [c])) a =
          memoryRead (memoryOfCells n cells) a := by
        by_cases hc : c.1 < n
        · rw [memoryOfCells_append_single n cells c hc, if_neg (Ne.symm hca)]
        · rw [memoryOfCells_append_dropped cells (Nat.not_lt.1 hc)]
      rw [hkept, ih, beq_eq_false_iff_ne.2 hca]

/-- Settles O58: the attached memory is canonical and reads as its last listed cells. -/
theorem attachedImageReadsAsListed : Obligations.AttachedImageReadsAsListed := by
  intro s n cells
  refine ⟨memoryOfCells_wf n cells, fun a ha => ?_, fun a ha => imageByte_of_ge ha, rfl,
    fun rest hp => step_of_pending hp⟩
  rw [imageByte_of_lt ha]
  exact congrArg some (memoryRead_memoryOfCells ha cells)

end Sys2Proof.Machine
end

section
/-! SUPPORT. Every command ends where the image port delivers what `IMG_LEN` promises (R242), so a run under the host's
duties never stops. -/

namespace Sys2Proof.Machine

/-- The outcome is a next state. -/
def Ends (o : Out) : Prop := ∃ t, o = .next t

theorem endComparison_ends (equal : Bool) (e : CmdError) (s : State) :
    Ends (endComparison equal e s) := by
  cases equal <;> exact ⟨_, rfl⟩

theorem withDescriptor_ends {off width : Nat} {s : State} {go : Out} (h : Ends go) :
    Ends (withDescriptor off width s go) := by
  unfold withDescriptor
  split
  · exact h
  · exact ⟨_, rfl⟩

theorem withHeader_ends {n : Nat} {s : State} {go : Out} (h : n ≤ s.imgLen.toNat → Ends go) :
    Ends (withHeader n s go) := by
  unfold withHeader
  split
  · exact ⟨_, rfl⟩
  · exact h (Nat.not_lt.1 ‹_›)

theorem withinImage_ends {a : Nat} {s : State} {go : Out} (h : a < s.imgLen.toNat → Ends go) :
    Ends (withinImage a s go) := by
  unfold withinImage
  split
  · exact ⟨_, rfl⟩
  · exact h (Nat.not_le.1 ‹_›)

/-- Under the duty of R242 the port has every byte below a length that `IMG_LEN` reaches. -/
theorem withImage_ends {a n len : Nat} {s : State} {go : List Byte → Out} (hduty : LengthDuty s)
    (hlen : len ≤ s.imgLen.toNat) (hreads : a + n ≤ len) (h : ∀ bs, Ends (go bs)) :
    Ends (withImage a n s go) := by
  rw [withImage_of_le (hreads.trans (hlen.trans hduty))]
  exact h _

/-- A command reads only below the length its check has asked `IMG_LEN` for, so under the duty of R242 it ends. -/
theorem exec_ends (i : Instr) {s : State} (hduty : LengthDuty s) : Ends (exec i s) := by
  cases i with
  | ext off width => exact withDescriptor_ends ⟨_, rfl⟩
  | enc off width => exact withDescriptor_ends ⟨_, rfl⟩
  | enca off width => exact withDescriptor_ends ⟨_, rfl⟩
  | extm off width addr =>
    exact withDescriptor_ends (withinImage_ends fun hlen =>
      withImage_ends hduty hlen (le_refl _) fun _ => ⟨_, rfl⟩)
  | hck =>
    exact withHeader_ends fun hlen => withImage_ends hduty hlen (by decide) fun _ =>
      withImage_ends hduty hlen (by decide) fun _ => endComparison_ends _ _ _
  | gck =>
    exact withHeader_ends fun hlen => withImage_ends hduty hlen (by decide) fun _ => ⟨_, rfl⟩
  | logo =>
    exact withHeader_ends fun hlen =>
      withImage_ends hduty hlen (by decide) fun _ => endComparison_ends _ _ _
  | magic =>
    exact withHeader_ends fun hlen =>
      withImage_ends hduty hlen (by decide) fun _ => endComparison_ends _ _ _

theorem commandStep_ends (w : Word) {s : State} (hduty : LengthDuty s) : Ends (commandStep w s) := by
  cases h : decode w with
  | command i => exact commandStep_of_command h s ▸ exec_ends i hduty
  | illegal why => exact ⟨_, commandStep_of_illegal h s⟩

/-- An event whose duty is done is served. -/
theorem serve_ends {e : HostEvent} {s : State} (hduty : eventDuty e s) : Ends (serve e s) := by
  cases e with
  | read size addr =>
    obtain ⟨r, hr⟩ := Option.isSome_iff_exists.1 hduty
    exact ⟨{ s with readData := portRead s r }, by simp [serve, hr]⟩
  | write size addr data =>
    obtain ⟨hport, hlength⟩ := hduty
    obtain ⟨r, hr⟩ := Option.isSome_iff_exists.1 hport
    cases hreset : s.inReset with
    | true => exact ⟨s, by simp [serve, hr, hreset]⟩
    | false =>
      have hserve : serve (.write size addr data) s = writeRegister r data s := by
        simp [serve, hr, hreset]
      rw [hserve]
      by_cases hcmd : r = .cmd
      · subst hcmd
        exact commandStep_ends data (hlength hr hreset)
      · exact ⟨_, writeRegister_of_ne_cmd hcmd data s⟩
  | assertReset => exact ⟨_, rfl⟩
  | releaseReset => exact ⟨_, rfl⟩
  | attachImage size cells => exact ⟨_, rfl⟩
  | secondHost => exact hduty.elim

/-- A step in which the host does its duty answers a next state. -/
theorem step_ends {s : State} (hduty : StepDuty s) : Ends (step s) := by
  unfold StepDuty at hduty
  cases hp : s.pending with
  | nil => exact ⟨s, step_of_idle hp⟩
  | cons e rest =>
    rw [hp] at hduty
    have hrest : eventDuty e { s with pending := rest } := by cases e <;> exact hduty
    exact step_of_pending hp ▸ serve_ends hrest

/-- Settles O53, by induction on the number of steps: a safe step answers a state from which the rest is safe. -/
theorem safeRunNeverStops : Obligations.SafeRunNeverStops := by
  intro n
  induction n with
  | zero => exact fun s _ => ⟨s, core_run_zero s⟩
  | succ n ih =>
    rintro s ⟨hduty, hsafe⟩
    obtain ⟨t, ht⟩ := step_ends hduty
    rw [core_run_succ n ht]
    exact ih t (hsafe t ht)

end Sys2Proof.Machine
end

section
/-! SUPPORT. When a command is refused: check by check, the conditions under which it comes to read a byte that the image
port lacks (R242, log 10). -/

namespace Sys2Proof.Machine

/-- The outcome is a refusal. -/
def Refuses (o : Out) : Prop := ∃ r, o = .refused r

@[simp] theorem not_refuses_next (s : State) : ¬Refuses (.next s) := by
  rintro ⟨_, ⟨⟩⟩

@[simp] theorem not_refuses_raise (e : CmdError) (s : State) : ¬Refuses (raise e s) :=
  not_refuses_next _

@[simp] theorem not_refuses_succeed (c u : Bool) (s : State) : ¬Refuses (succeed c u s) :=
  not_refuses_next _

@[simp] theorem not_refuses_endComparison (equal : Bool) (e : CmdError) (s : State) :
    ¬Refuses (endComparison equal e s) := by
  cases equal
  · exact not_refuses_raise e s
  · exact not_refuses_succeed true false s

theorem withDescriptor_refuses_iff (off width : Nat) (s : State) (go : Out) :
    Refuses (withDescriptor off width s go) ↔ descriptorValid off width = true ∧ Refuses go := by
  cases h : descriptorValid off width <;> simp [withDescriptor, h]

theorem withHeader_refuses_iff (len : Nat) (s : State) (go : Out) :
    Refuses (withHeader len s go) ↔ len ≤ s.imgLen.toNat ∧ Refuses go := by
  by_cases h : len ≤ s.imgLen.toNat
  · simp [withHeader_of_le h, h]
  · simp [withHeader_of_lt (Nat.not_le.1 h), h]

theorem withinImage_refuses_iff (a : Nat) (s : State) (go : Out) :
    Refuses (withinImage a s go) ↔ a + 1 ≤ s.imgLen.toNat ∧ Refuses go := by
  by_cases h : a + 1 ≤ s.imgLen.toNat
  · simp [withinImage_of_lt h, h]
  · simp [withinImage_of_le (Nat.not_lt.1 h), h]

/-- Some byte of a range is missing exactly where its last one is. -/
theorem exists_missing_iff {a n : Nat} (hn : 0 < n) (size : Nat) :
    (∃ x ∈ List.range' a n, size ≤ x) ↔ size < a + n := by
  simp only [List.mem_range'_1]
  constructor
  · rintro ⟨x, ⟨-, hx⟩, hsize⟩
    omega
  · intro h
    exact ⟨a + n - 1, by omega, by omega⟩

/-- An image read is refused where a byte of its range is missing; otherwise the command goes on with the bytes. -/
theorem withImage_refuses_iff {a n : Nat} (hn : 0 < n) (s : State) (go : List Byte → Out) :
    Refuses (withImage a n s go) ↔
      (∃ x ∈ List.range' a n, s.image.size ≤ x) ∨
        Refuses (go ((List.range' a n).map (memoryRead s.image.bytes))) := by
  rw [exists_missing_iff hn]
  by_cases h : s.image.size < a + n
  · simp [withImage_of_gt hn h, h, Refuses]
  · simp [withImage_of_le (Nat.not_lt.1 h), h]

/-- A command whose end never refuses is refused by its one image read alone. -/
theorem withImage_refuses_iff_missing {a n : Nat} (hn : 0 < n) {s : State} {go : List Byte → Out}
    (hgo : ∀ bs, ¬Refuses (go bs)) :
    Refuses (withImage a n s go) ↔ ∃ x ∈ List.range' a n, s.image.size ≤ x := by
  rw [withImage_refuses_iff hn, or_iff_left (hgo _)]

/-- `HCK` reads the region and then the stored byte, which lies next to it: together the 26 bytes of R51. -/
theorem hck_missing_iff (size : Nat) :
    ((∃ x ∈ List.range' Config.hckLo (Config.hckHi - Config.hckLo), size ≤ x) ∨
        ∃ x ∈ List.range' Config.hckAt 1, size ≤ x) ↔
      ∃ x ∈ commandReads .hck, size ≤ x := by
  rw [commandReads, exists_missing_iff (by decide), exists_missing_iff (by decide),
    exists_missing_iff (by decide)]
  simp only [Config.hckLo, Config.hckHi, Config.hckAt]
  omega

/-- A command that has no descriptor asks for its length first; then its reads decide. -/
theorem withHeader_refuses_iff_missing (i : Instr) {s : State} {go : Out}
    (hfits : descriptorFits i = true)
    (hgo : Refuses go ↔ ∃ a ∈ commandReads i, s.image.size ≤ a) :
    Refuses (withHeader (lengthNeeded i) s go) ↔
      descriptorFits i = true ∧ lengthNeeded i ≤ s.imgLen.toNat ∧
        ∃ a ∈ commandReads i, s.image.size ≤ a := by
  rw [withHeader_refuses_iff, hgo, and_iff_right hfits]

/-- A command is refused exactly when its checks pass and the port lacks a byte it reads (R51, R242). -/
theorem exec_refuses_iff (i : Instr) (s : State) :
    Refuses (exec i s) ↔
      descriptorFits i = true ∧ lengthNeeded i ≤ s.imgLen.toNat ∧
        ∃ a ∈ commandReads i, s.image.size ≤ a := by
  cases i with
  | ext off width | enc off width | enca off width =>
    exact (withDescriptor_refuses_iff _ _ _ _).trans (by simp [commandReads])
  | extm off width addr =>
    refine (withDescriptor_refuses_iff _ _ _ _).trans (and_congr_right' ?_)
    refine (withinImage_refuses_iff _ _ _).trans (and_congr_right' ?_)
    exact withImage_refuses_iff_missing (by decide) fun _ => not_refuses_succeed _ _ _
  | hck =>
    refine withHeader_refuses_iff_missing .hck rfl ((withImage_refuses_iff (by decide) _ _).trans ?_)
    rw [withImage_refuses_iff_missing (by decide) fun _ => not_refuses_endComparison _ _ _]
    exact hck_missing_iff _
  | gck =>
    exact withHeader_refuses_iff_missing .gck rfl
      (withImage_refuses_iff_missing (by decide) fun _ => not_refuses_succeed _ _ _)
  | logo =>
    exact withHeader_refuses_iff_missing .logo rfl
      (withImage_refuses_iff_missing (by decide) fun _ => not_refuses_endComparison _ _ _)
  | magic =>
    exact withHeader_refuses_iff_missing .magic rfl
      (withImage_refuses_iff_missing (by decide) fun _ => not_refuses_endComparison _ _ _)

/-- The one refusal a command can answer is that of a missing image byte (R242). -/
theorem exec_refused {i : Instr} {s : State} {r : Refusal} (h : exec i s = .refused r) :
    r = .noImageByte := by
  rcases exec_outcome i s with h' | ⟨_, _, _, _, h', -⟩
  · rw [h] at h'
    injection h'
  · rw [h] at h'
    cases h'

/-- A command reads only below the length it asks `IMG_LEN` for. -/
theorem lt_lengthNeeded_of_mem_commandReads {i : Instr} {a : Nat} (h : a ∈ commandReads i) :
    a < lengthNeeded i := by
  cases i with
  | ext | enc | enca => simp [commandReads] at h
  | extm off width addr =>
    simp only [commandReads, List.mem_singleton] at h
    simp [lengthNeeded, h]
  | hck | gck | logo | magic =>
    simp only [commandReads, List.mem_range'_1] at h
    simp only [lengthNeeded, Config.hckLo, Config.gckAt, Config.logoAt, Config.logoLen] at h ⊢
    omega

/-- Settles O36: `exec_refuses_iff` walks through the checks of each command. -/
theorem refusedExactlyForMissingByte : Obligations.RefusedExactlyForMissingByte :=
  ⟨exec_refuses_iff, fun _ _ _ h => exec_refused h,
    fun _ _ h => lt_lengthNeeded_of_mem_commandReads h⟩

end Sys2Proof.Machine
end

section
/-! SUPPORT. A host write followed by a read of the same word. -/

namespace Sys2Proof.Machine

/-- A host write stores the same whatever accesses are still to come. -/
theorem storeRegister_setPending (s : State) (events : List HostEvent) (r : PortReg) (d : Word) :
    storeRegister { s with pending := events } r d =
      { storeRegister s r d with pending := events } := by
  rw [storeRegister_eq, storeRegister_eq]

theorem storeRegister_params (s : State) (r : PortReg) (d : Word) :
    (storeRegister s r d).params = s.params := by
  rw [storeRegister_eq]

theorem storeRegister_inReset (s : State) (r : PortReg) (d : Word) :
    (storeRegister s r d).inReset = s.inReset := by
  rw [storeRegister_eq]

/-- A host read does not depend on the accesses still to come. -/
theorem portRead_setPending (s : State) (events : List HostEvent) (r : PortReg) :
    portRead { s with pending := events } r = portRead s r := by
  cases r <;> rfl

/-- With reset released, a write to a word other than `CMD` and a read of it take two steps, and the read finds what the
write stored (R60, R244). -/
theorem run_write_read {s : State} {rest : List HostEvent} {r : PortReg} {d : Word}
    (hne : r ≠ .cmd) (hreset : s.inReset = false)
    (hp : s.pending = .write .word (s.params.regBase + regOffset r) d ::
      .read .word (s.params.regBase + regOffset r) :: rest) :
    Sys2Proof.core.run 2 s =
      .next { storeRegister s r d with
        pending := rest, readData := readRegister (storeRegister s r d) r } := by
  have hread : portRead (storeRegister s r d) r = readRegister (storeRegister s r d) r := by
    simp [portRead, storeRegister_inReset, hreset]
  have hwriteStep := step_write r hreset hp
  rw [writeRegister_of_ne_cmd hne, storeRegister_setPending] at hwriteStep
  have hreadStep := step_read (s := { storeRegister s r d with
    pending := .read .word (s.params.regBase + regOffset r) :: rest }) (rest := rest) r
    (by rw [storeRegister_params])
  rw [portRead_setPending, hread] at hreadStep
  rw [core_run_succ 1 hwriteStep, core_run_succ 0 hreadStep, core_run_zero]

/-- The low byte of a word, stored and read back zero-extended. -/
theorem toNat_setWidth_extractLsb'_low (d : Word) :
    ((d.extractLsb' 0 8).setWidth 32).toNat = d.toNat % 256 := by
  simp (disch := omega) [extractLsb'_low, Nat.mod_eq_of_lt]

/-- Settles O48: `run_write_read`, and the registers keep the low byte of the data or all of it (R25, R26, R35). -/
theorem readReturnsLastWrite : Obligations.ReadReturnsLastWrite := by
  intro s rest n d hreset hn hp
  obtain rfl | rfl | rfl := hn
  · exact ⟨_, run_write_read (r := .src) (by decide) hreset hp, rfl,
      toNat_setWidth_extractLsb'_low d⟩
  · exact ⟨_, run_write_read (r := .val) (by decide) hreset hp, rfl,
      toNat_setWidth_extractLsb'_low d⟩
  · exact ⟨_, run_write_read (r := .imgLen) (by decide) hreset hp, rfl, rfl⟩

end Sys2Proof.Machine
end

section
/-! SUPPORT. The encoding: which words each row of the opcode table takes, field by field; from it the two round trips,
the rows' decision and the illegal words (R71 to R78). -/

namespace Sys2Proof

/-- The `OP` value of a mnemonic (R75). -/
def opValue : Opcode → BitVec 4
  | .ext => 0x1
  | .extm => 0x2
  | .enc => 0x3
  | .enca => 0x4
  | .hck => 0x5
  | .gck => 0x6
  | .logo => 0x7
  | .magic => 0x8

/-- The reserved field of a mnemonic's format is zero in a word (R78). -/
def reservedZero (w : Word) : Opcode → Prop
  | .ext | .enc | .enca => w.extractLsb' 0 22 = 0
  | .extm => w.extractLsb' 16 6 = 0
  | .hck | .gck | .logo | .magic => w.extractLsb' 0 28 = 0

/-- A format-B mask that reserves `ADDR` too asks for bits [21:0] to be zero (R71). -/
theorem and_rsv22_eq_zero_iff (w : Word) :
    w.extractLsb' 0 22 &&& 0x3FFFFF = 0 ↔ w.extractLsb' 0 22 = 0 := by
  rw [show (0x3FFFFF : BitVec 22) = BitVec.allOnes 22 from rfl, BitVec.and_allOnes]

/-- `EXTM`'s mask asks for `RSV6` to be zero (R71). -/
theorem and_rsv6_eq_zero_iff (w : Word) :
    w.extractLsb' 0 22 &&& 0x3F0000 = 0 ↔ w.extractLsb' 16 6 = 0 := by
  have hsplit : w.extractLsb' 0 22 = w.extractLsb' 16 6 ++ w.extractLsb' 0 16 :=
    (BitVec.extractLsb'_append_extractLsb'_eq_extractLsb' (len₁ := 16) (len₂ := 6) rfl).symm
  rw [hsplit, show (0x3F0000 : BitVec 22) = BitVec.allOnes 6 ++ 0#16 from rfl, BitVec.and_append,
    BitVec.and_allOnes, BitVec.and_zero, show (0 : BitVec 22) = 0#6 ++ 0#16 from rfl,
    BitVec.append_left_inj]
  rfl

theorem fieldOp_formatC (op : BitVec 4) : fieldOp (formatC op) = op := by
  revert op
  decide

theorem extractLsb'_formatC (op : BitVec 4) : (formatC op).extractLsb' 0 28 = 0 := by
  revert op
  decide

/-- A format-C row takes the word with its `OP` and zeros in all other bits (R72). -/
theorem eq_formatC_iff (w : Word) (op : BitVec 4) :
    w = formatC op ↔ fieldOp w = op ∧ w.extractLsb' 0 28 = 0 := by
  constructor
  · rintro rfl
    exact ⟨fieldOp_formatC op, extractLsb'_formatC op⟩
  · rintro ⟨hop, hlow⟩
    have hsplit : fieldOp w ++ w.extractLsb' 0 28 = w :=
      (BitVec.extractLsb'_append_extractLsb'_eq_extractLsb' (len₁ := 28) (len₂ := 4) rfl).trans
        BitVec.extractLsb'_eq_self
    rw [← hsplit, hop, hlow]
    rfl

/-- Which words a row of the table takes: those with its `OP` whose reserved field is zero (R75, R78). -/
theorem rowMatches_iff {r : OpcodeRow} (hr : r ∈ opcodeTable) (w : Word) :
    rowMatches w r = true ↔ fieldOp w = opValue r.op ∧ reservedZero w r.op := by
  simp only [opcodeTable, List.mem_cons, List.not_mem_nil, or_false] at hr
  obtain rfl | rfl | rfl | rfl | rfl | rfl | rfl | rfl := hr
  · exact (rowMatches_formatB_iff w .ext 0x1 0x3FFFFF).trans
      (and_congr_right' (and_rsv22_eq_zero_iff w))
  · exact (rowMatches_formatB_iff w .extm 0x2 0x3F0000).trans
      (and_congr_right' (and_rsv6_eq_zero_iff w))
  · exact (rowMatches_formatB_iff w .enc 0x3 0x3FFFFF).trans
      (and_congr_right' (and_rsv22_eq_zero_iff w))
  · exact (rowMatches_formatB_iff w .enca 0x4 0x3FFFFF).trans
      (and_congr_right' (and_rsv22_eq_zero_iff w))
  · exact (rowMatches_formatC_iff w .hck _).trans (eq_formatC_iff w 0x5)
  · exact (rowMatches_formatC_iff w .gck _).trans (eq_formatC_iff w 0x6)
  · exact (rowMatches_formatC_iff w .logo _).trans (eq_formatC_iff w 0x7)
  · exact (rowMatches_formatC_iff w .magic _).trans (eq_formatC_iff w 0x8)

/-! ### Decode after encode -/

theorem rowOf_takes_encode (i : Instr) : Laws.TableRow.Statement i := by
  cases i with
  | ext off width => exact Laws.TableRow.ext off width
  | extm off width addr => exact Laws.TableRow.extm off width addr
  | enc off width => exact Laws.TableRow.enc off width
  | enca off width => exact Laws.TableRow.enca off width
  | hck => exact Laws.TableRow.hck
  | gck => exact Laws.TableRow.gck
  | logo => exact Laws.TableRow.logo
  | magic => exact Laws.TableRow.magic

theorem descriptorEncodable_iff (off width : Nat) :
    descriptorEncodable off width = true ↔ off ≤ 7 ∧ 1 ≤ width ∧ width ≤ 8 := by
  simp [descriptorEncodable, and_assoc]

/-- A format-B word shows the descriptor it was made of (R73). -/
theorem descriptor_formatB {off width : Nat} (h : descriptorEncodable off width = true)
    (op : BitVec 4) (addr : Nat) :
    fieldOff (formatB op off width addr) = off ∧ fieldWidth (formatB op off width addr) = width := by
  obtain ⟨hoff, hpos, hwidth⟩ := (descriptorEncodable_iff off width).1 h
  rw [fieldOff_formatB, fieldWidth_formatB]
  omega

/-- The fields of a well-formed command's word are its operands (R71 to R74). -/
theorem buildCommand_encode {i : Instr} (h : i.wellFormed = true) :
    buildCommand (Laws.TableRow.rowOf i).op (encode i) = i := by
  cases i with
  | ext off width =>
    obtain ⟨hoff, hwidth⟩ := descriptor_formatB h 0x1 0
    exact congrArg₂ Instr.ext hoff hwidth
  | enc off width =>
    obtain ⟨hoff, hwidth⟩ := descriptor_formatB h 0x3 0
    exact congrArg₂ Instr.enc hoff hwidth
  | enca off width =>
    obtain ⟨hoff, hwidth⟩ := descriptor_formatB h 0x4 0
    exact congrArg₂ Instr.enca hoff hwidth
  | extm off width addr =>
    obtain ⟨hdescr, haddr⟩ : descriptorEncodable off width = true ∧ addr < 2 ^ 16 := by
      simpa only [Instr.wellFormed, Bool.and_eq_true, decide_eq_true_eq] using h
    obtain ⟨hoff, hwidth⟩ := descriptor_formatB hdescr 0x2 addr
    have haddr' : fieldAddr (formatB 0x2 off width addr) = addr := by
      rw [fieldAddr_formatB, Nat.mod_eq_of_lt haddr]
    simp only [encode, Laws.TableRow.rowOf, buildCommand, hoff, hwidth, haddr']
  | hck | gck | logo | magic => rfl

/-- Settles O1: a command's word matches the command's own row, and its fields are the operands. -/
theorem decodeOfEncode : Obligations.DecodeOfEncode := by
  intro i hwf
  obtain ⟨hmem, hmatch⟩ := rowOf_takes_encode i
  rw [decode_of_rowMatches hmem hmatch, buildCommand_encode hwf]

/-! ### Encode after decode -/

/-- A word whose `RSV6` is zero is the format-B word of its own fields (R71). -/
theorem formatB_fields {w : Word} (h : w.extractLsb' 16 6 = 0) :
    formatB (fieldOp w) (fieldOff w) (fieldWidth w) (fieldAddr w) = w := by
  calc formatB (fieldOp w) (fieldOff w) (fieldWidth w) (fieldAddr w)
      = w.extractLsb' 28 4 ++ w.extractLsb' 25 3 ++ w.extractLsb' 22 3 ++ w.extractLsb' 16 6 ++
          w.extractLsb' 0 16 := by
        simp only [formatB, fieldOp, fieldOff, fieldWidth, fieldAddr, Nat.add_sub_cancel,
          BitVec.ofNat_toNat, BitVec.setWidth_eq, h]
        rfl
    _ = w.extractLsb' 0 32 := by
        rw [BitVec.extractLsb'_append_extractLsb'_eq_extractLsb' (show 28 = 25 + 3 from rfl),
          BitVec.extractLsb'_append_extractLsb'_eq_extractLsb' (show 25 = 22 + 3 from rfl),
          BitVec.extractLsb'_append_extractLsb'_eq_extractLsb' (show 22 = 16 + 6 from rfl),
          BitVec.extractLsb'_append_extractLsb'_eq_extractLsb' (show 16 = 0 + 16 from rfl)]
    _ = w := BitVec.extractLsb'_eq_self

/-- A field within bits [21:0] is zero where they are. -/
theorem extractLsb'_eq_zero_of_low22 {w : Word} (h : w.extractLsb' 0 22 = 0) {start len : Nat}
    (hle : start + len ≤ 22) : w.extractLsb' start len = 0 := by
  rw [← BitVec.extractLsb'_extractLsb'_of_le hle, h]
  simp

/-- A word is rebuilt from its `OP`, its operands and the zeros of its reserved field (R71, R72). -/
theorem encode_buildCommand {o : Opcode} {w : Word} (hop : fieldOp w = opValue o)
    (hrsv : reservedZero w o) : encode (buildCommand o w) = w := by
  have format_b : w.extractLsb' 0 22 = 0 → formatB (opValue o) (fieldOff w) (fieldWidth w) 0 = w := by
    intro h
    have haddr : fieldAddr w = 0 :=
      congrArg BitVec.toNat (extractLsb'_eq_zero_of_low22 h (show 0 + 16 ≤ 22 by decide))
    rw [← hop, ← haddr]
    exact formatB_fields (extractLsb'_eq_zero_of_low22 h (by decide))
  cases o with
  | ext | enc | enca => exact format_b hrsv
  | extm =>
    have hword := formatB_fields hrsv
    rwa [hop] at hword
  | hck | gck | logo | magic => exact ((eq_formatC_iff w _).2 ⟨hop, hrsv⟩).symm

/-- Settles O2: the row that decodes the word names its `OP` and its zero bits; the operands are the other bits. -/
theorem encodeOfDecode : Obligations.EncodeOfDecode := by
  intro w i h
  obtain ⟨r, hr, hmatch, rfl⟩ := decode_eq_command h
  obtain ⟨hop, hrsv⟩ := (rowMatches_iff hr w).1 hmatch
  exact ⟨buildCommand_wellFormed r.op w, encode_buildCommand hop hrsv⟩

/-! ### The rows decide -/

/-- A field of a word, cut out as its bits or by a shift and a mask. -/
theorem toNat_extractLsb'_eq_shift_mask (w : Word) (start : Nat) {len : Nat} (hlen : len ≤ 32) :
    (w.extractLsb' start len).toNat = ((w >>> start) &&& BitVec.ofNat 32 (2 ^ len - 1)).toNat := by
  have hmask : 2 ^ len - 1 < 2 ^ 32 :=
    (Nat.sub_one_lt (Nat.two_pow_pos len).ne').trans_le (Nat.pow_le_pow_right (by decide) hlen)
  rw [BitVec.extractLsb'_toNat, BitVec.toNat_and, BitVec.toNat_ushiftRight,
    BitVec.toNat_ofNat, Nat.mod_eq_of_lt hmask, Nat.and_two_pow_sub_one_eq_mod]

theorem fieldOff_eq (w : Word) : fieldOff w = ((w >>> 25) &&& 0x7).toNat :=
  toNat_extractLsb'_eq_shift_mask w 25 (len := 3) (by decide)

theorem fieldWidth_eq (w : Word) : fieldWidth w = ((w >>> 22) &&& 0x7).toNat + 1 :=
  congrArg (· + 1) (toNat_extractLsb'_eq_shift_mask w 22 (len := 3) (by decide))

theorem fieldAddr_eq (w : Word) : fieldAddr w = (w &&& 0xFFFF).toNat := by
  rw [fieldAddr, toNat_extractLsb'_eq_shift_mask w 0 (by decide), BitVec.ushiftRight_zero]
  rfl

/-- Settles O3: the decoder takes the one row that matches, and `buildCommand` reads the fields of R71. -/
theorem opcodeRowsDecide : Obligations.OpcodeRowsDecide := by
  intro w
  refine ⟨fun r hr r' hr' h h' => ?_, fun r hr h => ?_, fun h => ?_⟩
  · have hfind := find?_of_rowMatches hr (beq_iff_eq.2 h)
    rw [find?_of_rowMatches hr' (beq_iff_eq.2 h')] at hfind
    exact (Option.some.inj hfind).symm
  · rw [decode_of_rowMatches hr (beq_iff_eq.2 h), ← fieldOff_eq, ← fieldWidth_eq, ← fieldAddr_eq]
    cases r.op <;> rfl
  · exact ⟨_, decode_of_no_row fun r hr => beq_eq_false_iff_ne.2 (h r hr)⟩

/-! ### Which words are illegal -/

/-- Each `OP` value is 0x0, 0x9 or above, or that of a row (R75, R78). -/
theorem op_cases (op : BitVec 4) :
    op.toNat = 0 ∨ 9 ≤ op.toNat ∨ ∃ r ∈ opcodeTable, op = opValue r.op := by
  revert op
  decide

theorem opValue_inj : ∀ r ∈ opcodeTable, ∀ r' ∈ opcodeTable,
    opValue r.op = opValue r'.op → r.op = r'.op := by
  decide

/-- A word whose `OP` names no row is illegal (R78). -/
theorem decode_illegal_of_op {w : Word} (h : ∀ r ∈ opcodeTable, fieldOp w ≠ opValue r.op) :
    ∃ why, decode w = .illegal why :=
  ⟨_, decode_of_no_row fun r hr => Bool.eq_false_iff.2 fun hmatch =>
    h r hr ((rowMatches_iff hr w).1 hmatch).1⟩

/-- A word whose `OP` is that of a row is illegal exactly where the row's reserved field is not zero (R78). -/
theorem decode_illegal_iff_of_op {w : Word} {r : OpcodeRow} (hr : r ∈ opcodeTable)
    (hop : fieldOp w = opValue r.op) :
    (∃ why, decode w = .illegal why) ↔ ¬reservedZero w r.op := by
  constructor
  · rintro ⟨why, hillegal⟩ hrsv
    rw [decode_of_rowMatches hr ((rowMatches_iff hr w).2 ⟨hop, hrsv⟩)] at hillegal
    cases hillegal
  · refine fun hrsv => ⟨_, decode_of_no_row fun r' hr' => Bool.eq_false_iff.2 fun hmatch => hrsv ?_⟩
    obtain ⟨hop', hrsv'⟩ := (rowMatches_iff hr' w).1 hmatch
    rwa [opValue_inj r hr r' hr' (hop.symm.trans hop')]

/-- Settles O4: an `OP` that names a row leaves the row's reserved field to decide, and `op_cases` names the others. -/
theorem illegalWordsRunAsIllegalCommand : Obligations.IllegalWordsRunAsIllegalCommand := by
  refine ⟨fun w => ?_, fun w why s h => Machine.commandStep_of_illegal h s, .opcode, by decide⟩
  by_cases hrow : ∃ r ∈ opcodeTable, fieldOp w = opValue r.op
  · obtain ⟨r, hr, hop⟩ := hrow
    have hop' : w.extractLsb' 28 4 = opValue r.op := hop
    rw [decode_illegal_iff_of_op hr hop, hop']
    cases r.op <;> simp [opValue, reservedZero]
  · have hillegal := decode_illegal_of_op fun r hr hop => hrow ⟨r, hr, hop⟩
    rcases op_cases (fieldOp w) with h | h | h
    · exact iff_of_true hillegal (.inl h)
    · exact iff_of_true hillegal (.inr (.inl h))
    · exact absurd h hrow

/-- Settles O5: the decoder run on each word. -/
theorem specWordsDecode : Obligations.SpecWordsDecode := by
  unfold Obligations.SpecWordsDecode
  decide

end Sys2Proof
end

section
/-! SUPPORT. The assembler's words as sums of shifted fields, and the operands it accepts (R80). -/

namespace Sys2Proof.Machine

/-- A number shifted to its place in a word loses no bit where the word is wide enough. -/
theorem toNat_ofNat_shiftLeft {n k : Nat} (h : n * 2 ^ k < 2 ^ 32) :
    (BitVec.ofNat 32 n <<< k).toNat = n <<< k := by
  have hn : n < 2 ^ 32 := (Nat.le_mul_of_pos_right n (Nat.two_pow_pos k)).trans_lt h
  rw [BitVec.toNat_shiftLeft, BitVec.toNat_ofNat, Nat.mod_eq_of_lt hn, Nat.shiftLeft_eq,
    Nat.mod_eq_of_lt h]

/-- A format-B word as its fields shifted to their places (R71). -/
theorem formatB_eq_or (op : BitVec 4) {off width addr : Nat} (hoff : off ≤ 7) (hwidth : width ≤ 8)
    (haddr : addr ≤ 0xFFFF) :
    formatB op off width addr =
      op.setWidth 32 <<< 28 |||
        (BitVec.ofNat 32 off <<< 25 ||| BitVec.ofNat 32 (width - 1) <<< 22) |||
          BitVec.ofNat 32 addr := by
  apply BitVec.eq_of_toNat_eq
  have hop := op.isLt
  simp only [formatB, BitVec.toNat_append, BitVec.toNat_or, BitVec.toNat_ofNat, ← BitVec.ofNat_toNat]
  rw [toNat_ofNat_shiftLeft (n := op.toNat) (by omega), toNat_ofNat_shiftLeft (by omega),
    toNat_ofNat_shiftLeft (by omega)]
  simp (disch := omega) only [Nat.mod_eq_of_lt, Nat.shiftLeft_or_distrib, ← Nat.shiftLeft_add]
  simp [Nat.or_assoc]

/-- The same without an address. -/
theorem formatB_zero_eq_or (op : BitVec 4) {off width : Nat} (hoff : off ≤ 7) (hwidth : width ≤ 8) :
    formatB op off width 0 =
      op.setWidth 32 <<< 28 |||
        (BitVec.ofNat 32 off <<< 25 ||| BitVec.ofNat 32 (width - 1) <<< 22) :=
  (formatB_eq_or op hoff hwidth (Nat.zero_le _)).trans BitVec.or_zero

/-- The operands of a format-B command that the assembler accepts, but for the address (R80). -/
theorem descriptor_accepted_iff (off width : Nat) :
    (descriptorEncodable off width && descriptorValid off width) = true ↔
      off ≤ 7 ∧ 1 ≤ width ∧ width ≤ 8 ∧ off + width ≤ 8 := by
  simp [descriptorEncodable_iff, descriptorValid, and_assoc]

theorem assembleCommand_of_accepts {i : Instr} (h : assemblerAccepts i = true) :
    assembleCommand i = some (encode i) := if_pos h

theorem assembleCommand_of_not_accepts {i : Instr} (h : ¬assemblerAccepts i = true) :
    assembleCommand i = none := if_neg h

/-- The assembler accepts an `EXTM` whose descriptor it accepts and whose address has 16 bits (R80). -/
theorem assemblerAccepts_extm_iff (off width addr : Nat) :
    assemblerAccepts (.extm off width addr) = true ↔
      (off ≤ 7 ∧ 1 ≤ width ∧ width ≤ 8 ∧ off + width ≤ 8) ∧ addr ≤ 0xFFFF := by
  rw [← descriptor_accepted_iff]
  simp only [assemblerAccepts, Instr.wellFormed, descriptorFits, Bool.and_eq_true, decide_eq_true_eq]
  rw [and_right_comm]
  exact and_congr_right' Nat.lt_succ_iff

/-- Settles O6: the assembler accepts what fits, and the word of what it accepts is `formatB_eq_or`'s. -/
theorem assemblerWords : Obligations.AssemblerWords := by
  refine ⟨fun off width => ⟨fun hfits => ?_, fun hunfit => ?_, fun addr =>
    ⟨fun hfits haddr => ?_, fun hunfit => ?_⟩⟩, rfl, rfl, rfl, rfl⟩
  · have haccepts := (descriptor_accepted_iff off width).2 hfits
    obtain ⟨hoff, -, hwidth, -⟩ := hfits
    have word (op : BitVec 4) := congrArg some (formatB_zero_eq_or op hoff hwidth)
    exact ⟨(assembleCommand_of_accepts (i := .ext off width) haccepts).trans (word 0x1),
      (assembleCommand_of_accepts (i := .enc off width) haccepts).trans (word 0x3),
      (assembleCommand_of_accepts (i := .enca off width) haccepts).trans (word 0x4)⟩
  · have hreject := mt (descriptor_accepted_iff off width).1 hunfit
    exact ⟨assembleCommand_of_not_accepts hreject, assembleCommand_of_not_accepts hreject,
      assembleCommand_of_not_accepts hreject⟩
  · have haccepts := (assemblerAccepts_extm_iff off width addr).2 ⟨hfits, haddr⟩
    obtain ⟨hoff, -, hwidth, -⟩ := hfits
    exact (assembleCommand_of_accepts haccepts).trans
      (congrArg some (formatB_eq_or 0x2 hoff hwidth haddr))
  · exact assembleCommand_of_not_accepts (mt (assemblerAccepts_extm_iff off width addr).1 hunfit)

end Sys2Proof.Machine
end

section
/-! SUPPORT. The bound on the image bytes a command reads (R51, R92). -/

namespace Sys2Proof.Machine

theorem length_commandReads_le (i : Instr) : (commandReads i).length ≤ 48 := by
  cases i <;> simp [commandReads, Config.logoLen]

/-- Settles O35: commands end by `exec_ends` and words by `commandStep_ends`; `LOGO` reads most. -/
theorem everyCommandEnds : Obligations.EveryCommandEnds :=
  ⟨fun i _ hduty => exec_ends i hduty, fun w _ hduty => commandStep_ends w hduty,
    length_commandReads_le⟩

end Sys2Proof.Machine
end

section
/-! SUPPORT. Two runs of one command side by side: a relation that holds of the ends of two states holds of the outcomes
of any command in them. From it, what a command's writes depend on (R91), and that a second issue changes nothing. -/

namespace Sys2Proof.Machine

/-- Two states have the same inputs of a command, beside `RESULT`, `ERRSEEN` and image bytes. -/
structure SameInputs (s t : State) : Prop where
  src : s.src = t.src
  val : s.val = t.val
  imgLen : s.imgLen = t.imgLen
  params : s.params = t.params

/-- The relation holds of the refusals of R242 and of each pair of ends that a command may come to in two states. -/
structure RelatesEnds (R : Out → Out → Prop) (s t : State) : Prop where
  refused : R (.refused .noImageByte) (.refused .noImageByte)
  ended (e : BitVec 4) (c u : Bool) :
    R (.next (endCommand e c u s)) (.next (endCommand e c u t))
  endedWithResult (e : BitVec 4) (c u : Bool) (v : Half) :
    R (.next (endCommand e c u (s.setResult v))) (.next (endCommand e c u (t.setResult v)))
  /-- `ENCA` alone computes its result from the old one (R91, R125). -/
  endedWithOr (u : Bool) (b : Byte) :
    R (.next (endCommand 0 false u (s.setResult (byteToResult (resultLow s.result ||| b)))))
      (.next (endCommand 0 false u (t.setResult (byteToResult (resultLow t.result ||| b)))))

section Related
variable {R : Out → Out → Prop} {s t : State}

theorem RelatesEnds.endComparison (h : RelatesEnds R s t) (equal : Bool) (e : CmdError) :
    R (endComparison equal e s) (endComparison equal e t) := by
  cases equal
  · exact h.ended _ _ _
  · exact h.ended _ _ _

theorem RelatesEnds.endComparison_setResult (h : RelatesEnds R s t) (equal : Bool) (e : CmdError)
    (v : Half) :
    R (Machine.endComparison equal e (s.setResult v))
      (Machine.endComparison equal e (t.setResult v)) := by
  cases equal
  · exact h.endedWithResult _ _ _ v
  · exact h.endedWithResult _ _ _ v

theorem RelatesEnds.withDescriptor (h : RelatesEnds R s t) {off width : Nat} {go go' : Out}
    (hgo : R go go') : R (withDescriptor off width s go) (withDescriptor off width t go') := by
  unfold Machine.withDescriptor
  split
  · exact hgo
  · exact h.ended _ _ _

theorem RelatesEnds.withHeader (h : RelatesEnds R s t) (hin : SameInputs s t) {n : Nat}
    {go go' : Out} (hgo : R go go') : R (withHeader n s go) (withHeader n t go') := by
  unfold Machine.withHeader
  rw [hin.imgLen]
  split
  · exact h.ended _ _ _
  · exact hgo

theorem RelatesEnds.withinImage (h : RelatesEnds R s t) (hin : SameInputs s t) {a : Nat}
    {go go' : Out} (hgo : R go go') : R (withinImage a s go) (withinImage a t go') := by
  unfold Machine.withinImage
  rw [hin.imgLen]
  split
  · exact h.ended _ _ _
  · exact hgo

theorem RelatesEnds.withImage (h : RelatesEnds R s t) {a n : Nat} {go go' : List Byte → Out}
    (hbytes : ∀ x ∈ List.range' a n, imageByte s.image x = imageByte t.image x)
    (hgo : ∀ bs, R (go bs) (go' bs)) : R (withImage a n s go) (withImage a n t go') := by
  unfold Machine.withImage
  rw [imageBytes_congr hbytes]
  split
  · exact h.refused
  · exact hgo _

/-- The outcomes of one command in two states with the same inputs are related if the ends are. -/
theorem RelatesEnds.exec (h : RelatesEnds R s t) (hin : SameInputs s t) (i : Instr)
    (hbytes : ∀ a ∈ commandReads i, imageByte s.image a = imageByte t.image a) :
    R (exec i s) (exec i t) := by
  cases i with
  | ext off width =>
    refine h.withDescriptor ?_
    rw [hin.src]
    exact h.endedWithResult _ _ _ _
  | extm off width addr =>
    exact h.withDescriptor (h.withinImage hin (h.withImage hbytes fun _ => h.endedWithResult _ _ _ _))
  | enc off width =>
    refine h.withDescriptor ?_
    rw [hin.val]
    exact h.endedWithResult _ _ _ _
  | enca off width =>
    refine h.withDescriptor ?_
    rw [hin.val]
    exact h.endedWithOr _ _
  | hck =>
    rw [commandReads, List.range'_concat, List.forall_mem_append] at hbytes
    obtain ⟨hregion, hstored⟩ := hbytes
    refine h.withHeader hin (h.withImage hregion fun _ => h.withImage hstored fun _ => ?_)
    rw [hin.params]
    exact h.endComparison_setResult _ _ _
  | gck => exact h.withHeader hin (h.withImage hbytes fun _ => h.endedWithResult _ _ _ _)
  | logo =>
    refine h.withHeader hin (h.withImage hbytes fun _ => ?_)
    rw [hin.params]
    exact h.endComparison _ _
  | magic => exact h.withHeader hin (h.withImage hbytes fun _ => h.endComparison _ _)

/-- The same of the word written to `CMD`; an illegal word is an end of its own (R78, R90). -/
theorem RelatesEnds.commandStep (h : RelatesEnds R s t) (hin : SameInputs s t) (w : Word)
    (hbytes : ∀ i, decode w = .command i →
      ∀ a ∈ commandReads i, imageByte s.image a = imageByte t.image a) :
    R (commandStep w s) (commandStep w t) := by
  cases hw : decode w with
  | command i =>
    rw [commandStep_of_command hw, commandStep_of_command hw]
    exact h.exec hin i (hbytes i hw)
  | illegal why =>
    simp only [Machine.commandStep, hw]
    exact h.ended _ _ _

end Related

/-- Both commands are refused, or both end with the same `RESULT` and `STATUS` and everything else as it was (R91). -/
def SameWrites (s t : State) (o o' : Out) : Prop :=
  (o = .refused .noImageByte ∧ o' = .refused .noImageByte) ∨
  ∃ (r : Half) (st : Status),
    o = .next { s with result := r, status := st } ∧ o' = .next { t with result := r, status := st }

theorem statusAfter_congr {x y : Status} (h : x.errSeen = y.errSeen) (e : BitVec 4) (c u : Bool) :
    statusAfter x e c u = statusAfter y e c u := by
  rw [statusAfter, statusAfter, h]

theorem sameWrites_end {s t : State} (h : s.status.errSeen = t.status.errSeen) (e : BitVec 4)
    (c u : Bool) (v : Half) :
    SameWrites s t (.next (endCommand e c u (s.setResult v)))
      (.next (endCommand e c u (t.setResult v))) :=
  .inr ⟨v, statusAfter s.status e c u, rfl, by rw [statusAfter_congr h]; rfl⟩

theorem relatesEnds_sameWrites {s t : State} (hresult : s.result = t.result)
    (herrSeen : s.status.errSeen = t.status.errSeen) : RelatesEnds (SameWrites s t) s t where
  refused := .inl ⟨rfl, rfl⟩
  ended e c u := by
    refine .inr ⟨s.result, statusAfter s.status e c u, rfl, ?_⟩
    rw [hresult, statusAfter_congr herrSeen]
    rfl
  endedWithResult e c u v := sameWrites_end herrSeen e c u v
  endedWithOr u b := by
    rw [hresult]
    exact sameWrites_end herrSeen 0 false u _

/-- Settles O37: the ends of states that agree on `RESULT` and `ERRSEEN` make the same writes. -/
theorem writesDependOnlyOnNamedInputs : Obligations.WritesDependOnlyOnNamedInputs := by
  intro w s t hsrc hval hresult herrSeen himgLen hparams hbytes
  exact (relatesEnds_sameWrites hresult herrSeen).commandStep ⟨hsrc, hval, himgLen, hparams⟩ w hbytes

/-- If the first issue left this state, so does the second. -/
def LeavesAgain (t : State) (o o' : Out) : Prop := o = .next t → o' = .next t

/-- `ERRSEEN` stays set, and the other fields are written anew (R33, R90). -/
theorem statusAfter_idem (x : Status) (e : BitVec 4) (c u : Bool) :
    statusAfter (statusAfter x e c u) e c u = statusAfter x e c u := by
  simp [statusAfter]

theorem endCommand_idem (e : BitVec 4) (c u : Bool) (s : State) :
    endCommand e c u (endCommand e c u s) = endCommand e c u s := by
  simp [endCommand, statusAfter_idem]

theorem endCommand_setResult_idem (e : BitVec 4) (c u : Bool) (v : Half) (s : State) :
    endCommand e c u ((endCommand e c u (s.setResult v)).setResult v) =
      endCommand e c u (s.setResult v) :=
  endCommand_idem e c u (s.setResult v)

theorem resultLow_byteToResult (b : Byte) : resultLow (byteToResult b) = b := by
  rw [resultLow, byteToResult, ← BitVec.setWidth_eq_extractLsb' (by decide),
    BitVec.setWidth_setWidth_of_le _ (by decide), BitVec.setWidth_eq]

theorem relatesEnds_leavesAgain (s t : State) : RelatesEnds (LeavesAgain t) s t where
  refused := by rintro ⟨⟩
  ended e c u := by
    rintro ⟨⟩
    rw [endCommand_idem]
  endedWithResult e c u v := by
    rintro ⟨⟩
    rw [endCommand_setResult_idem]
  endedWithOr u b := by
    rintro ⟨⟩
    rw [endCommand_result, setResult_result, resultLow_byteToResult, BitVec.or_assoc, BitVec.or_self,
      endCommand_setResult_idem]

/-- Settles O38: the first issue keeps every input but `RESULT` and `ERRSEEN`, and its end repeats itself. -/
theorem commandIsIdempotent : Obligations.CommandIsIdempotent := by
  intro w s t hfirst
  obtain ⟨r, e, c, u, ht, -⟩ := commandStep_next hfirst
  have hin : SameInputs s t := by subst ht; exact ⟨rfl, rfl, rfl, rfl⟩
  have himage : s.image = t.image := by subst ht; rfl
  exact (relatesEnds_leavesAgain s t).commandStep hin w (fun _ _ a _ => himage ▸ rfl) hfirst

end Sys2Proof.Machine
end

section
/-! SUPPORT. The codec primitives: their bits, and the numbers they make; from them the laws of R100 to R105. -/

namespace Sys2Proof.Machine

theorem getLsbD_byteMask {width : Nat} (h : width ≤ 8) (k : Nat) :
    (byteMask width).getLsbD k = decide (k < width) := by
  rw [byteMask, BitVec.getLsbD_ofNat, Nat.testBit_two_pow_sub_one, ← Bool.decide_and]
  exact decide_eq_decide.2 (and_iff_right_of_imp fun hk => hk.trans_le h)

/-- Bit k of an extraction is bit `off + k` of the byte, inside the field (R100). -/
theorem getLsbD_fieldExtract (b : Byte) (off : Nat) {width : Nat} (h : width ≤ 8) (k : Nat) :
    (fieldExtract b off width).getLsbD k = (decide (k < width) && b.getLsbD (off + k)) := by
  rw [fieldExtract, BitVec.getLsbD_and, BitVec.getLsbD_ushiftRight, getLsbD_byteMask h, Bool.and_comm]

/-- Bit k of an encoding is bit `k - off` of the value, inside the field (R102). -/
theorem getLsbD_fieldEncode (v : Byte) {off width : Nat} (h : off + width ≤ 8) (k : Nat) :
    (fieldEncode v off width).getLsbD k =
      (decide (off ≤ k ∧ k < off + width) && v.getLsbD (k - off)) := by
  rw [fieldEncode, BitVec.getLsbD_shiftLeft, BitVec.getLsbD_and, getLsbD_byteMask (by omega)]
  by_cases hk : off ≤ k ∧ k < off + width
  · have hk8 : k < 8 := by omega
    have hlow : k - off < width := by omega
    simp [hk, hk8, hlow]
  · by_cases hoff : off ≤ k
    · have hhigh : ¬k - off < width := by omega
      simp [hk, hhigh]
    · have hbelow : k < off := by omega
      simp [hk, hbelow]

/-- Settles O7: a mask has a one at each bit below its width, and a shift moves bits. -/
theorem fieldBits : Obligations.FieldBits := by
  intro b off width k h
  exact ⟨getLsbD_fieldExtract b off (by omega) k, getLsbD_fieldEncode b h k⟩

/-! ### As numbers -/

/-- The low width bits of a byte (R10). -/
theorem toNat_and_byteMask (b : Byte) {width : Nat} (h : width ≤ 8) :
    (b &&& byteMask width).toNat = b.toNat % 2 ^ width := by
  have hmask : 2 ^ width - 1 < 2 ^ 8 :=
    (Nat.sub_one_lt (Nat.two_pow_pos width).ne').trans_le (Nat.pow_le_pow_right (by decide) h)
  rw [byteMask, BitVec.toNat_and, BitVec.toNat_ofNat, Nat.mod_eq_of_lt hmask,
    Nat.and_two_pow_sub_one_eq_mod]

theorem toNat_fieldExtract (b : Byte) (off : Nat) {width : Nat} (h : width ≤ 8) :
    (fieldExtract b off width).toNat = b.toNat / 2 ^ off % 2 ^ width := by
  rw [fieldExtract, toNat_and_byteMask _ h, BitVec.toNat_ushiftRight, Nat.shiftRight_eq_div_pow]

/-- Inside the byte an encoding loses no bit to the shift (R102). -/
theorem toNat_fieldEncode (v : Byte) {off width : Nat} (h : off + width ≤ 8) :
    (fieldEncode v off width).toNat = v.toNat % 2 ^ width * 2 ^ off := by
  have hfits : v.toNat % 2 ^ width * 2 ^ off < 2 ^ 8 :=
    calc v.toNat % 2 ^ width * 2 ^ off
        < 2 ^ width * 2 ^ off :=
          Nat.mul_lt_mul_of_pos_right (Nat.mod_lt _ (Nat.two_pow_pos width)) (Nat.two_pow_pos off)
      _ = 2 ^ (off + width) := by rw [← Nat.pow_add, Nat.add_comm]
      _ ≤ 2 ^ 8 := Nat.pow_le_pow_right (by decide) h
  rw [fieldEncode, BitVec.toNat_shiftLeft, toNat_and_byteMask _ (by omega), Nat.shiftLeft_eq,
    Nat.mod_eq_of_lt hfits]

/-- A set bit is discarded iff the value does not fit the width (R103). -/
theorem fieldTruncates_iff (v : Byte) (width : Nat) :
    fieldTruncates v width = true ↔ 2 ^ width ≤ v.toNat := by
  rw [fieldTruncates, bne_iff_ne, ← Nat.not_lt, ← Nat.div_eq_zero_iff_lt (Nat.two_pow_pos width),
    ← Nat.shiftRight_eq_div_pow, ← BitVec.toNat_ushiftRight]
  exact not_congr BitVec.toNat_inj.symm

theorem fieldTruncates_eq_decide (v : Byte) (width : Nat) :
    fieldTruncates v width = decide (2 ^ width ≤ v.toNat) := by
  rw [Bool.eq_iff_iff, fieldTruncates_iff, decide_eq_true_iff]

/-- The discarded bits are those at `width` and above (R103). -/
theorem fieldTruncates_iff_exists_bit (v : Byte) (width : Nat) :
    fieldTruncates v width = true ↔ ∃ k, width ≤ k ∧ v.getLsbD k = true := by
  rw [fieldTruncates_iff]
  constructor
  · exact Nat.exists_ge_and_testBit_of_ge_two_pow
  · rintro ⟨k, hk, hbit⟩
    exact (Nat.pow_le_pow_right (by decide) hk).trans (Nat.ge_two_pow_of_testBit hbit)

/-- An encoding depends on the low width bits of the value alone (R103). -/
theorem fieldEncode_mod (v : Byte) (off : Nat) {width : Nat} (h : width ≤ 8) :
    fieldEncode (BitVec.ofNat 8 (v.toNat % 2 ^ width)) off width = fieldEncode v off width := by
  refine congrArg (fun x : Byte => x <<< off) (BitVec.eq_of_toNat_eq ?_)
  have hlt : v.toNat % 2 ^ width < 2 ^ 8 := (Nat.mod_le _ _).trans_lt v.isLt
  rw [toNat_and_byteMask _ h, toNat_and_byteMask _ h, BitVec.toNat_ofNat, Nat.mod_eq_of_lt hlt,
    Nat.mod_mod]

/-- Settles O8: the encoding as a number is a multiple of 2^off, and `Trunc` asks for a bit at `width` or above. -/
theorem fieldTruncation : Obligations.FieldTruncation := by
  intro v off width h
  refine ⟨?_, (fieldEncode_mod v off (by omega)).symm, fieldTruncates_iff_exists_bit v width, rfl, ?_⟩
  · rw [BitVec.toNat_ushiftRight, toNat_fieldEncode v h, Nat.shiftRight_eq_div_pow,
      Nat.mul_div_cancel _ (Nat.two_pow_pos off)]
  · rintro rfl
    rw [fieldTruncates_eq_decide]
    exact decide_eq_false (Nat.not_le.2 v.isLt)

/-! ### Round trips and packing -/

/-- A field reads back as the low bits of its value (R104). -/
theorem fieldExtract_fieldEncode (v : Byte) {off width : Nat} (h : off + width ≤ 8) :
    fieldExtract (fieldEncode v off width) off width = v &&& byteMask width := by
  apply BitVec.eq_of_toNat_eq
  rw [toNat_fieldExtract _ _ (by omega), toNat_fieldEncode v h, toNat_and_byteMask _ (by omega),
    Nat.mul_div_cancel _ (Nat.two_pow_pos off), Nat.mod_mod]

/-- A field put back where it was taken from is the byte under the field's mask (R104). -/
theorem fieldEncode_fieldExtract (b : Byte) {off width : Nat} (h : off + width ≤ 8) :
    fieldEncode (fieldExtract b off width) off width = b &&& (byteMask width <<< off) := by
  apply BitVec.eq_of_getLsbD_eq
  intro k hk
  rw [getLsbD_fieldEncode _ h, getLsbD_fieldExtract _ _ (by omega), BitVec.getLsbD_and,
    BitVec.getLsbD_shiftLeft, getLsbD_byteMask (by omega)]
  by_cases hoff : off ≤ k
  · have hlow : k < off + width ↔ k - off < width := by omega
    by_cases hin : k - off < width <;> simp [hk, hoff, hlow, hin]
  · simp [hoff, Nat.not_le.1 hoff]

/-- A field that reaches the top of the byte needs no mask (R104). -/
theorem fieldExtract_to_top (b : Byte) {off : Nat} (h : off ≤ 8) :
    fieldExtract b off (8 - off) = b >>> off := by
  apply BitVec.eq_of_toNat_eq
  have hlt : b.toNat / 2 ^ off < 2 ^ (8 - off) := by
    rw [Nat.div_lt_iff_lt_mul (Nat.two_pow_pos off), ← Nat.pow_add, Nat.sub_add_cancel h]
    exact b.isLt
  rw [toNat_fieldExtract _ _ (Nat.sub_le 8 off), BitVec.toNat_ushiftRight,
    Nat.shiftRight_eq_div_pow, Nat.mod_eq_of_lt hlt]

/-- Settles O9: one lemma for each law. -/
theorem fieldRoundTripLaws : Obligations.FieldRoundTripLaws := by
  intro b v off width _ h
  exact ⟨fieldExtract_fieldEncode v h, fieldEncode_fieldExtract b h, fieldExtract_to_top b (by omega)⟩

/-- Whatever the ranges, no set bit of an OR is lost (R105). -/
theorem fieldExtract_or (x y : Byte) (off width : Nat) :
    fieldExtract (x ||| y) off width = fieldExtract x off width ||| fieldExtract y off width := by
  rw [fieldExtract, BitVec.ushiftRight_or_distrib, BitVec.and_or_distrib_right]
  rfl

/-- An encoding leaves every other field zero (R105). -/
theorem fieldExtract_fieldEncode_of_disjoint (v : Byte) {o w o' w' : Nat} (h : o + w ≤ 8)
    (h' : o' + w' ≤ 8) (hdisj : o + w ≤ o' ∨ o' + w' ≤ o) :
    fieldExtract (fieldEncode v o' w') o w = 0 := by
  apply BitVec.eq_of_getLsbD_eq
  intro k _
  rw [getLsbD_fieldExtract _ _ (by omega), getLsbD_fieldEncode _ h']
  by_cases hk : k < w
  · have hout : ¬(o' ≤ o + k ∧ o + k < o' + w') := by omega
    simp [hout]
  · simp [hk]

/-- A field ORed with another in a different place reads back (R105). -/
theorem fieldExtract_packed (v v' : Byte) {o w o' w' : Nat} (h : o + w ≤ 8) (h' : o' + w' ≤ 8)
    (hdisj : o + w ≤ o' ∨ o' + w' ≤ o) :
    fieldExtract (fieldEncode v o w ||| fieldEncode v' o' w') o w = v &&& byteMask w := by
  rw [fieldExtract_or, fieldExtract_fieldEncode v h,
    fieldExtract_fieldEncode_of_disjoint v' h h' hdisj]
  exact BitVec.or_zero

/-- Both fields of a pair in different places read back (R105). -/
theorem fieldExtract_packed_pair (v v' : Byte) {o w o' w' : Nat} (h : o + w ≤ 8)
    (h' : o' + w' ≤ 8) (hdisj : o + w ≤ o' ∨ o' + w' ≤ o) :
    fieldExtract (fieldEncode v o w ||| fieldEncode v' o' w') o w = v &&& byteMask w ∧
      fieldExtract (fieldEncode v o w ||| fieldEncode v' o' w') o' w' = v' &&& byteMask w' :=
  ⟨fieldExtract_packed v v' h h' hdisj, by
    rw [BitVec.or_comm]
    exact fieldExtract_packed v' v h' h hdisj.symm⟩

/-- Settles O10: each encoding is zero in the other's field, and extraction distributes over OR. -/
theorem fieldPackingLaw : Obligations.FieldPackingLaw :=
  ⟨fun v v' _ _ _ _ _ h _ h' hdisj => fieldExtract_packed_pair v v' h h' hdisj,
    fun x y => fieldExtract_packed_pair x y (by decide) (by decide) (by decide),
    fun x y o w _ => fieldExtract_or x y o w⟩

end Sys2Proof.Machine
end

section
/-! SUPPORT. The codec commands whole: each as the chain of its checks and its end, from an operand or from the word
written to `CMD` (R90, R101, R110 to R125). -/

namespace Sys2Proof.Machine

/-! ### Ends and checks as updates of the state -/

/-- An error end touches `STATUS` only (R204). -/
theorem raise_eq_failure (e : CmdError) (s : State) :
    raise e s = .next { s with status := Status.failure (errorCode e) } := by
  rw [raise_eq, endCommand, statusAfter_error]
  rfl

/-- A success that wrote `RESULT` touches it and `STATUS` only (R90). -/
theorem succeed_setResult (c u : Bool) (s : State) (v : Half) :
    succeed c u (s.setResult v) = .next { s with result := v, status := s.status.success c u } := by
  rw [succeed_eq, endCommand, statusAfter_success]
  rfl

theorem withDescriptor_eq_ite (off width : Nat) (s : State) (go : Out) :
    withDescriptor off width s go =
      if 8 < off + width then .next { s with status := Status.failure 5 } else go := by
  split
  · rw [withDescriptor_of_gt ‹_›, raise_eq_failure]
    rfl
  · exact withDescriptor_of_le (Nat.not_lt.1 ‹_›) s go

theorem withinImage_eq_ite (a : Nat) (s : State) (go : Out) :
    withinImage a s go =
      if s.imgLen.toNat ≤ a then .next { s with status := Status.failure 6 } else go := by
  split
  · rw [withinImage_of_le ‹_›, raise_eq_failure]
    rfl
  · exact withinImage_of_lt (Nat.not_le.1 ‹_›) go

theorem withImage_one_eq_ite (a : Nat) (s : State) (go : List Byte → Out) :
    withImage a 1 s go =
      if s.image.size ≤ a then .refused .noImageByte else go [memoryRead s.image.bytes a] := by
  split
  · exact withImage_of_gt Nat.one_pos (Nat.lt_succ_of_le ‹_›) go
  · exact withImage_of_le (Nat.not_le.1 ‹_›) go

/-! ### The four commands -/

theorem exec_ext (off width : Nat) (s : State) :
    exec (.ext off width) s =
      if 8 < off + width then .next { s with status := Status.failure 5 }
      else .next { s with
        result := byteToResult (fieldExtract s.src off width)
        status := s.status.success false false } := by
  rw [exec, execExt, withDescriptor_eq_ite, succeed_setResult]

theorem exec_extm (off width addr : Nat) (s : State) :
    exec (.extm off width addr) s =
      if 8 < off + width then .next { s with status := Status.failure 5 }
      else if s.imgLen.toNat ≤ addr then .next { s with status := Status.failure 6 }
      else if s.image.size ≤ addr then .refused .noImageByte
      else .next { s with
        result := byteToResult (fieldExtract (memoryRead s.image.bytes addr) off width)
        status := s.status.success false false } := by
  rw [exec, execExtm, withDescriptor_eq_ite, withinImage_eq_ite, withImage_one_eq_ite,
    succeed_setResult, List.headD_cons]

theorem exec_enc (off width : Nat) (s : State) :
    exec (.enc off width) s =
      if 8 < off + width then .next { s with status := Status.failure 5 }
      else .next { s with
        result := byteToResult (fieldEncode s.val off width)
        status := s.status.success false (fieldTruncates s.val width) } := by
  rw [exec, execEnc, withDescriptor_eq_ite, succeed_setResult]

theorem exec_enca (off width : Nat) (s : State) :
    exec (.enca off width) s =
      if 8 < off + width then .next { s with status := Status.failure 5 }
      else .next { s with
        result := byteToResult (resultLow s.result ||| fieldEncode s.val off width)
        status := s.status.success false (fieldTruncates s.val width) } := by
  rw [exec, execEnca, withDescriptor_eq_ite, succeed_setResult]

/-- Settles O27: the descriptor is the first check of each codec command. -/
theorem invalidDescriptorEndsWithDescriptorError :
    Obligations.InvalidDescriptorEndsWithDescriptorError := by
  refine ⟨fun off width => decide_eq_true_iff, by decide, fun s off width addr h => ?_⟩
  rw [exec_ext, exec_extm, exec_enc, exec_enca]
  exact ⟨if_pos h, if_pos h, if_pos h, if_pos h⟩

/-! ### The results as numbers -/

theorem toNat_byteToResult (b : Byte) : (byteToResult b).toNat = b.toNat :=
  BitVec.toNat_setWidth_of_le (by decide)

theorem toNat_resultLow (r : Half) : (resultLow r).toNat = r.toNat % 256 := by
  rw [resultLow, BitVec.extractLsb'_toNat, Nat.shiftRight_zero]

/-- Settles O11: `exec_ext`, and the extraction as a number. -/
theorem extExtractsFieldOfSrc : Obligations.ExtExtractsFieldOfSrc := by
  intro s off width _ h
  refine ⟨byteToResult (fieldExtract s.src off width), ?_, ?_⟩
  · rw [toNat_byteToResult, toNat_fieldExtract _ _ (by omega)]
  · rw [exec_ext, if_neg (Nat.not_lt.2 h)]

/-- Settles O12: `exec_extm`, and the extraction as a number. -/
theorem extmExtractsFieldOfImageByte : Obligations.ExtmExtractsFieldOfImageByte := by
  intro s off width addr _ h _ hlen hsize
  refine ⟨byteToResult (fieldExtract (memoryRead s.image.bytes addr) off width), ?_, ?_⟩
  · rw [toNat_byteToResult, toNat_fieldExtract _ _ (by omega)]
  · rw [exec_extm, if_neg (Nat.not_lt.2 h), if_neg (Nat.not_le.2 hlen), if_neg (Nat.not_le.2 hsize)]

/-- Settles O13: `exec_enc`, the encoding as a number, and `Trunc` as a comparison. -/
theorem encEncodesVal : Obligations.EncEncodesVal := by
  intro s off width _ h
  refine ⟨byteToResult (fieldEncode s.val off width), ?_, ?_⟩
  · rw [toNat_byteToResult, toNat_fieldEncode _ h]
  · rw [exec_enc, if_neg (Nat.not_lt.2 h), fieldTruncates_eq_decide]

/-- Settles O14: `exec_enca`, the OR of the two bytes as numbers, and `Trunc` as a comparison. -/
theorem encaOrsValIntoResult : Obligations.EncaOrsValIntoResult := by
  intro s off width _ h
  refine ⟨byteToResult (resultLow s.result ||| fieldEncode s.val off width), ?_, ?_⟩
  · rw [toNat_byteToResult, BitVec.toNat_or, toNat_resultLow, toNat_fieldEncode _ h]
  · rw [exec_enca, if_neg (Nat.not_lt.2 h), fieldTruncates_eq_decide]

/-! ### From the word -/

theorem exists_row_of_opcode (o : Opcode) : ∃ r ∈ opcodeTable, r.op = o := by
  cases o <;> decide

/-- A word with the `OP` of a mnemonic is illegal where the reserved field of the format is not zero, and otherwise
runs the mnemonic's command with the word's fields (R77, R78, R90). -/
theorem commandStep_of_fieldOp {w : Word} (o : Opcode) (hop : fieldOp w = opValue o) {n : Nat}
    (rsv : BitVec n) (hrsv : reservedZero w o ↔ rsv = 0) (s : State) :
    commandStep w s =
      if rsv ≠ 0 then .next { s with status := Status.failure 7 }
      else exec (buildCommand o w) s := by
  obtain ⟨r, hr, rfl⟩ := exists_row_of_opcode o
  by_cases hzero : rsv = 0
  · have hmatch := (rowMatches_iff hr w).2 ⟨hop, hrsv.2 hzero⟩
    rw [if_neg (not_not_intro hzero), commandStep_of_command (decode_of_rowMatches hr hmatch)]
  · obtain ⟨why, hillegal⟩ := (decode_illegal_iff_of_op hr hop).2 (mt hrsv.1 hzero)
    rw [if_pos hzero, commandStep_of_illegal hillegal]

/-- Settles O19: `commandStep_of_fieldOp` and `exec_ext`. -/
theorem extWord : Obligations.ExtWord := by
  intro w s hop
  rw [commandStep_of_fieldOp .ext hop (w.extractLsb' 0 22) Iff.rfl, buildCommand, exec_ext]
  rfl

/-- Settles O20: `commandStep_of_fieldOp` and `exec_extm`. -/
theorem extmWord : Obligations.ExtmWord := by
  intro w s hop
  rw [commandStep_of_fieldOp .extm hop (w.extractLsb' 16 6) Iff.rfl, buildCommand, exec_extm]
  rfl

/-- Settles O21: `commandStep_of_fieldOp` and `exec_enc`. -/
theorem encWord : Obligations.EncWord := by
  intro w s hop
  rw [commandStep_of_fieldOp .enc hop (w.extractLsb' 0 22) Iff.rfl, buildCommand, exec_enc]
  rfl

/-- Settles O22: `commandStep_of_fieldOp` and `exec_enca`; a second issue leaves the whole state (O38). -/
theorem encaWord : Obligations.EncaWord := by
  intro w s hop
  constructor
  · rw [commandStep_of_fieldOp .enca hop (w.extractLsb' 0 22) Iff.rfl, buildCommand, exec_enca]
    rfl
  · intro t u hfirst hsecond
    rw [commandIsIdempotent w s t hfirst] at hsecond
    cases hsecond
    rfl

end Sys2Proof.Machine
end

section
/-! SUPPORT. The arithmetic of the checks: the header checksum as a sum and in closed form (R130 to R133, R136), and the
accumulated exclusive-or of a comparison (R144, R146). -/

namespace Sys2Proof.Machine

/-! ### The header checksum -/

theorem headerSum_cons (init b : Byte) (bs : List Byte) :
    headerSum init (b :: bs) = headerSum (checksumUpdate init b) bs := rfl

/-- The complement of a byte is `-b - 1`. -/
theorem checksumUpdate_eq_add_xor (r b : Byte) : checksumUpdate r b = r + (b ^^^ 0xFF) := by
  rw [show (0xFF : Byte) = BitVec.allOnes 8 from rfl, BitVec.xor_allOnes, BitVec.not_eq_neg_add,
    checksumUpdate, ← add_sub_assoc, ← sub_eq_add_neg]
  rfl

theorem headerSum_eq_add_sum (init : Byte) (bs : List Byte) :
    headerSum init bs = init + (bs.map (fun b => b ^^^ 0xFF)).sum := by
  induction bs generalizing init with
  | nil => exact (add_zero init).symm
  | cons b bs ih =>
    rw [headerSum_cons, ih, checksumUpdate_eq_add_xor, List.map_cons, List.sum_cons, add_assoc]

/-- Settles O54: one update adds the byte's complement, and the fold adds them all. -/
theorem checksumComplementForm : Obligations.ChecksumComplementForm :=
  ⟨checksumUpdate_eq_add_xor, headerSum_eq_add_sum⟩

/-- Each byte takes itself and 1 from the running value. -/
theorem headerSum_eq_sub (init : Byte) (bs : List Byte) :
    headerSum init bs = init - BitVec.ofNat 8 ((bs.map BitVec.toNat).sum + bs.length) := by
  induction bs generalizing init with
  | nil => exact (sub_zero init).symm
  | cons b bs ih =>
    rw [headerSum_cons, ih, checksumUpdate, List.map_cons, List.sum_cons, List.length_cons]
    bv_omega

theorem headerSum_perm (init : Byte) {bs bs' : List Byte} (h : bs.Perm bs') :
    headerSum init bs = headerSum init bs' := by
  rw [headerSum_eq_add_sum, headerSum_eq_add_sum, (h.map _).sum_eq]

/-- The closed form of R133 over the integers, for any number of bytes. -/
theorem headerSum_eq_ofInt (init : Byte) (bs : List Byte) :
    headerSum init bs =
      BitVec.ofInt 8 ((init.toNat : Int) - (bs.map BitVec.toNat).sum - bs.length) := by
  rw [headerSum_eq_sub]
  apply BitVec.eq_of_toNat_eq
  rw [BitVec.toNat_sub, BitVec.toNat_ofNat, BitVec.toNat_ofInt]
  omega

/-- Settles O55: the closed form at 25 bytes, from any start and from 0, and the invariance under permutation. -/
theorem checksumClosedForm : Obligations.ChecksumClosedForm := by
  refine ⟨fun init bs h => ?_, fun bs h => ?_, fun init bs bs' h => headerSum_perm init h⟩
  · rw [headerSum_eq_ofInt, h]
    rfl
  · rw [headerSum_eq_ofInt, h]
    apply BitVec.eq_of_toNat_eq
    rw [BitVec.toNat_ofInt, BitVec.toNat_ofInt, show (0 : Byte).toNat = 0 from rfl]
    omega

/-- The starting value can be read back from the checksum. -/
theorem headerSum_inj (bs : List Byte) {init init' : Byte}
    (h : headerSum init bs = headerSum init' bs) : init = init' := by
  rw [headerSum_eq_add_sum, headerSum_eq_add_sum] at h
  exact add_right_cancel h

theorem checksumUpdate_inj {r b b' : Byte} (h : checksumUpdate r b = checksumUpdate r b') : b = b' :=
  sub_right_injective (sub_left_injective h)

/-- Sums that agree mod 256 give regions of one length the same checksum (R136). -/
theorem headerSum_eq_of_sum_mod (init : Byte) {bs bs' : List Byte} (hlength : bs.length = bs'.length)
    (hsum : (bs.map BitVec.toNat).sum % 256 = (bs'.map BitVec.toNat).sum % 256) :
    headerSum init bs = headerSum init bs' := by
  rw [headerSum_eq_sub, headerSum_eq_sub, hlength, BitVec.ofNat_add, BitVec.ofNat_add]
  congr 2
  exact BitVec.eq_of_toNat_eq hsum

/-- A change of one byte of a region changes the checksum: with that byte put first, the checksum's other updates are
the same, and each of them can be undone (R136). -/
theorem headerSum_ne_of_one_byte {α : Type} [DecidableEq α] {f g : α → Byte} {region : List α}
    (hnodup : region.Nodup) {a : α} (ha : a ∈ region) (hne : f a ≠ g a)
    (hsame : ∀ x ∈ region, x ≠ a → f x = g x) (init : Byte) :
    headerSum init (region.map f) ≠ headerSum init (region.map g) := by
  have hfirst := List.perm_cons_erase ha
  have hrest : (region.erase a).map f = (region.erase a).map g :=
    List.map_inj_left.2 fun x hx => hsame x (List.mem_of_mem_erase hx) (hnodup.mem_erase_iff.1 hx).1
  intro heq
  rw [headerSum_perm init (hfirst.map f), headerSum_perm init (hfirst.map g), List.map_cons,
    List.map_cons, headerSum_cons, headerSum_cons, hrest] at heq
  exact hne (checksumUpdate_inj (headerSum_inj _ heq))

/-! ### The accumulated exclusive-or -/

/-- An OR over a list is 0 exactly when it starts at 0 and every member is 0. -/
theorem foldl_or_eq_zero_iff (init : Byte) (xs : List Byte) :
    xs.foldl (fun d x => d ||| x) init = 0 ↔ init = 0 ∧ ∀ x ∈ xs, x = 0 := by
  induction xs generalizing init with
  | nil => simp
  | cons x xs ih =>
    rw [List.foldl_cons, ih, List.forall_mem_cons, ← and_assoc]
    exact and_congr_left' BitVec.or_eq_zero_iff

theorem diffBytes_cons_eq_zero_iff (b r : Byte) (bs rs : List Byte) :
    diffBytes (b :: bs) (r :: rs) = 0 ↔ b = r ∧ diffBytes bs rs = 0 := by
  simp only [diffBytes, List.zipWith_cons_cons, foldl_or_eq_zero_iff, List.forall_mem_cons, true_and]
  exact and_congr_left' BitVec.xor_eq_zero_iff

theorem diffBytes_eq_zero_iff {bs rs : List Byte} (h : bs.length = rs.length) :
    diffBytes bs rs = 0 ↔ bs = rs := by
  induction bs generalizing rs with
  | nil =>
    obtain rfl := List.length_eq_zero_iff.1 h.symm
    exact iff_of_true rfl rfl
  | cons b bs ih =>
    obtain ⟨r, rs, rfl⟩ := List.exists_cons_of_length_eq_add_one h.symm
    rw [diffBytes_cons_eq_zero_iff, ih (Nat.succ.inj h), List.cons_eq_cons]

/-- The accumulated exclusive-or of two functions over one list of places. -/
theorem diffBytes_map {α : Type} (places : List α) (f g : α → Byte) :
    diffBytes (places.map f) (places.map g) =
      places.foldl (fun d k => d ||| (f k ^^^ g k)) 0 := by
  rw [diffBytes, List.zipWith_map, List.zipWith_self, List.foldl_map]

theorem diffBytes_map_eq_zero_iff {α : Type} (places : List α) (f g : α → Byte) :
    diffBytes (places.map f) (places.map g) = 0 ↔ ∀ k ∈ places, f k = g k := by
  rw [diffBytes_eq_zero_iff (by rw [List.length_map, List.length_map]), List.map_inj_left]

end Sys2Proof.Machine
end

section
/-! SUPPORT. The checksum validator commands whole: each as the chain of its checks and its end, from the command or from
the word written to `CMD` (R90, R130 to R151, R242). -/

namespace Sys2Proof.Machine

/-! ### Ends and checks as updates of the state -/

theorem succeed_eq_success (c u : Bool) (s : State) :
    succeed c u s = .next { s with status := s.status.success c u } := by
  rw [succeed_eq, endCommand, statusAfter_success]
  rfl

/-- A comparison of two bytes ends with its error where they differ, and sets `CKOK` where they agree (R144, R150). -/
theorem endComparison_beq_eq_ite (x y : Byte) (e : CmdError) (s : State) :
    endComparison (x == y) e s =
      if x ≠ y then .next { s with status := Status.failure (errorCode e) }
      else .next { s with status := s.status.success true false } := by
  by_cases h : x = y
  · rw [if_neg (not_not_intro h), beq_iff_eq.2 h, endComparison_true, succeed_eq_success]
  · rw [if_pos h, beq_eq_false_iff_ne.2 h, endComparison_false, raise_eq_failure]

theorem endComparison_setResult_beq_eq_ite (x y : Byte) (e : CmdError) (s : State) (v : Half) :
    endComparison (x == y) e (s.setResult v) =
      if x ≠ y then .next { s with result := v, status := Status.failure (errorCode e) }
      else .next { s with result := v, status := s.status.success true false } :=
  endComparison_beq_eq_ite x y e (s.setResult v)

theorem withHeader_eq_ite (n : Nat) (s : State) (go : Out) :
    withHeader n s go =
      if s.imgLen.toNat < n then .next { s with status := Status.failure 1 } else go := by
  split
  · rw [withHeader_of_lt ‹_›, raise_eq_failure]
    rfl
  · exact withHeader_of_le (Nat.not_lt.1 ‹_›) go

theorem withImage_eq_ite {a n : Nat} (hn : 0 < n) (s : State) (go : List Byte → Out) :
    withImage a n s go =
      if s.image.size < a + n then .refused .noImageByte
      else go ((List.range' a n).map (memoryRead s.image.bytes)) := by
  split
  · exact withImage_of_gt hn ‹_› go
  · exact withImage_of_le (Nat.not_lt.1 ‹_›) go

/-! ### The four commands -/

/-- The checksum of the 25 bytes of the header region that a state's image reads as (R130). -/
def headerChecksum (s : State) : Byte :=
  headerSum s.params.hckInit ((List.range' 0x134 25).map (memoryRead s.image.bytes))

/-- The accumulated exclusive-or of the logo region and `LOGO_REF` (R144). -/
def logoDiff (s : State) : Byte :=
  diffBytes ((List.range' 0x104 48).map (memoryRead s.image.bytes)) s.params.logoRef.toList

/-- The accumulated exclusive-or of the first four bytes and `NES_MAGIC` (R150). -/
def magicDiff (s : State) : Byte :=
  diffBytes ((List.range' 0 4).map (memoryRead s.image.bytes)) Config.nesMagic

/-- Byte 0x14D lies next to the region, so that one byte decides whether the port can deliver all of `HCK`'s. -/
theorem exec_hck (s : State) :
    exec .hck s =
      if s.imgLen.toNat < 0x150 then .next { s with status := Status.failure 1 }
      else if s.image.size ≤ 0x14D then .refused .noImageByte
      else if headerChecksum s ≠ memoryRead s.image.bytes 0x14D then
        .next { s with result := (headerChecksum s).setWidth 16, status := Status.failure 4 }
      else
        .next { s with
          result := (headerChecksum s).setWidth 16
          status := s.status.success true false } := by
  rw [exec, execHck, withHeader_eq_ite, withImage_eq_ite (by decide), withImage_one_eq_ite]
  refine if_congr Iff.rfl rfl ?_
  by_cases hstored : s.image.size ≤ 0x14D
  · rw [if_pos hstored, if_pos hstored, ite_self]
  · have hregion : ¬s.image.size < Config.hckLo + (Config.hckHi - Config.hckLo) :=
      mt Nat.le_of_lt hstored
    rw [if_neg hstored, if_neg hstored, if_neg hregion, endComparison_setResult_beq_eq_ite]
    exact if_congr ne_comm rfl rfl

theorem exec_gck (s : State) :
    exec .gck s =
      if s.imgLen.toNat < 0x150 then .next { s with status := Status.failure 1 }
      else if s.image.size ≤ 0x14F then .refused .noImageByte
      else
        .next { s with
          result := memoryRead s.image.bytes 0x14E ++ memoryRead s.image.bytes 0x14F
          status := s.status.success false false } := by
  rw [exec, execGck, withHeader_eq_ite, withImage_eq_ite (by decide), succeed_setResult]
  exact if_congr Iff.rfl rfl (if_congr Nat.lt_succ_iff rfl rfl)

theorem exec_logo (s : State) :
    exec .logo s =
      if s.imgLen.toNat < 0x150 then .next { s with status := Status.failure 1 }
      else if s.image.size < 0x134 then .refused .noImageByte
      else if logoDiff s ≠ 0 then .next { s with status := Status.failure 3 }
      else .next { s with status := s.status.success true false } := by
  rw [exec, execLogo, withHeader_eq_ite, withImage_eq_ite (by decide), endComparison_beq_eq_ite]
  rfl

theorem exec_magic (s : State) :
    exec .magic s =
      if s.imgLen.toNat < 16 then .next { s with status := Status.failure 1 }
      else if s.image.size < 4 then .refused .noImageByte
      else if magicDiff s ≠ 0 then .next { s with status := Status.failure 2 }
      else .next { s with status := s.status.success true false } := by
  rw [exec, execMagic, withHeader_eq_ite, withImage_eq_ite (by decide), endComparison_beq_eq_ite]
  rfl

/-! ### The checksum and the differences in the statements' terms -/

theorem headerChecksum_eq_foldl (s : State) :
    headerChecksum s =
      (List.range' 0x134 25).foldl (fun r a => r - memoryRead s.image.bytes a - 1) s.params.hckInit :=
  List.foldl_map

theorem headerChecksum_eq_sub (s : State) :
    headerChecksum s = s.params.hckInit - BitVec.ofNat 8
      (((List.range' 0x134 25).map (fun a => (memoryRead s.image.bytes a).toNat)).sum + 25) := by
  rw [headerChecksum, headerSum_eq_sub, List.map_map, List.length_map, List.length_range']
  rfl

theorem logoRegion_eq_map (s : State) :
    (List.range' 0x104 48).map (memoryRead s.image.bytes) =
      (List.finRange 48).map (fun k => memoryRead s.image.bytes (0x104 + k.val)) := by
  rw [show List.range' 0x104 48 = (List.finRange 48).map (fun k => 0x104 + k.val) by decide,
    List.map_map]
  rfl

theorem logoRef_eq_map (ref : Vector Byte 48) :
    ref.toList = (List.finRange 48).map (fun k => ref[k]) :=
  List.ext_getElem (by simp) fun k _ _ => by simp

theorem logoDiff_eq_foldl (s : State) :
    logoDiff s =
      (List.finRange 48).foldl
        (fun d k => d ||| (memoryRead s.image.bytes (0x104 + k.val) ^^^ s.params.logoRef[k])) 0 := by
  rw [logoDiff, logoRegion_eq_map, logoRef_eq_map, diffBytes_map]

theorem logoDiff_eq_zero_iff (s : State) :
    logoDiff s = 0 ↔
      ∀ k : Fin 48, memoryRead s.image.bytes (0x104 + k.val) = s.params.logoRef[k] := by
  rw [logoDiff, logoRegion_eq_map, logoRef_eq_map, diffBytes_map_eq_zero_iff]
  exact forall_congr' fun k => forall_prop_of_true (List.mem_finRange k)

theorem magicDiff_eq_foldl (s : State) :
    magicDiff s =
      (List.range 4).foldl
        (fun d i => d ||| (memoryRead s.image.bytes i ^^^ Config.nesMagic.getD i 0)) 0 :=
  diffBytes_map (List.range 4) (memoryRead s.image.bytes) (Config.nesMagic.getD · 0)

theorem magicDiff_eq_zero_iff (s : State) :
    magicDiff s = 0 ↔
      memoryRead s.image.bytes 0 = 0x4E ∧ memoryRead s.image.bytes 1 = 0x45 ∧
        memoryRead s.image.bytes 2 = 0x53 ∧ memoryRead s.image.bytes 3 = 0x1A := by
  rw [magicDiff, diffBytes_eq_zero_iff (by rfl)]
  simp only [List.range', List.map_cons, List.map_nil, Config.nesMagic, List.cons.injEq, and_true]

/-! ### Completion -/

/-- Settles O15: `exec_hck` past its checks, with the checksum in closed form. -/
theorem hckVerifiesHeaderChecksum : Obligations.HckVerifiesHeaderChecksum := by
  intro s hlen hsize total c
  have hc : headerChecksum s = c := headerChecksum_eq_sub s
  rw [exec_hck, if_neg (Nat.not_lt.2 hlen), if_neg (Nat.not_le.2 hsize), hc]
  by_cases hstored : memoryRead s.image.bytes 0x14D = c
  · rw [if_neg (not_not_intro hstored.symm), if_pos hstored]
  · rw [if_pos (Ne.symm hstored), if_neg hstored]

/-- Settles O16: `exec_gck` past its checks, and the two bytes as a number. -/
theorem gckReadsGlobalChecksum : Obligations.GckReadsGlobalChecksum := by
  intro s hlen hsize
  refine ⟨memoryRead s.image.bytes 0x14E ++ memoryRead s.image.bytes 0x14F, ?_, ?_⟩
  · exact toNat_append_add _ _
  · rw [exec_gck, if_neg (Nat.not_lt.2 hlen), if_neg (Nat.not_le.2 hsize)]

/-- Settles O17: `exec_logo` past its checks; the accumulated difference is 0 exactly if every byte agrees. -/
theorem logoComparesLogoRegion : Obligations.LogoComparesLogoRegion := by
  intro s hlen hsize
  rw [exec_logo, if_neg (Nat.not_lt.2 hlen), if_neg (Nat.not_lt.2 hsize)]
  constructor
  · intro hequal
    exact if_neg (not_not_intro ((logoDiff_eq_zero_iff s).2 fun k => hequal k k.isLt))
  · intro k hk hdiffers
    exact if_pos fun hzero => hdiffers ((logoDiff_eq_zero_iff s).1 hzero ⟨k, hk⟩)

/-- Settles O18: `exec_magic` past its checks; the accumulated difference is 0 exactly if the four bytes agree. -/
theorem magicComparesFirstFourBytes : Obligations.MagicComparesFirstFourBytes := by
  intro s hlen hsize
  rw [exec_magic, if_neg (Nat.not_lt.2 hlen), if_neg (Nat.not_lt.2 hsize)]
  by_cases hmagic : magicDiff s = 0
  · rw [if_neg (not_not_intro hmagic), if_pos ((magicDiff_eq_zero_iff s).1 hmagic)]
  · rw [if_pos hmagic, if_neg (mt (magicDiff_eq_zero_iff s).2 hmagic)]

/-! ### From the word -/

/-- Settles O23: `commandStep_of_fieldOp` and `exec_hck`. -/
theorem hckWord : Obligations.HckWord := by
  intro w s hop
  rw [commandStep_of_fieldOp .hck hop (w.extractLsb' 0 28) Iff.rfl, buildCommand, exec_hck,
    headerChecksum_eq_foldl]

/-- Settles O24: `commandStep_of_fieldOp` and `exec_gck`. -/
theorem gckWord : Obligations.GckWord := by
  intro w s hop
  rw [commandStep_of_fieldOp .gck hop (w.extractLsb' 0 28) Iff.rfl, buildCommand, exec_gck]

/-- Settles O25: `commandStep_of_fieldOp` and `exec_logo`. -/
theorem logoWord : Obligations.LogoWord := by
  intro w s hop
  rw [commandStep_of_fieldOp .logo hop (w.extractLsb' 0 28) Iff.rfl, buildCommand, exec_logo,
    logoDiff_eq_foldl]

/-- Settles O26: `commandStep_of_fieldOp` and `exec_magic`. -/
theorem magicWord : Obligations.MagicWord := by
  intro w s hop
  rw [commandStep_of_fieldOp .magic hop (w.extractLsb' 0 28) Iff.rfl, buildCommand, exec_magic,
    magicDiff_eq_foldl]

end Sys2Proof.Machine
end

section
/-! SUPPORT. What the checks tell the host: the verdict alone (R146), the changes a checksum finds (R136), and the computed
checksum after a mismatch (R135). -/

namespace Sys2Proof.Machine

/-! ### When `HCK` and `LOGO` pass -/

/-- `HCK` sets `CKOK` exactly where the length suffices, the port delivers byte 0x14D and the checksum equals it. -/
theorem exec_hck_passes_iff (s : State) :
    (∃ t, exec .hck s = .next t ∧ t.status.ckok = true) ↔
      0x150 ≤ s.imgLen.toNat ∧ 0x14D < s.image.size ∧
        headerChecksum s = memoryRead s.image.bytes 0x14D := by
  rw [exec_hck]
  split_ifs with hlen hsize hne
  · simp [Status.failure, Nat.not_le.2 hlen]
  · simp [Nat.not_lt.2 hsize]
  · simp [Status.failure, hne]
  · simp [Status.success, Nat.not_lt.1 hlen, Nat.not_le.1 hsize, not_not.1 hne]

/-- `LOGO` without `CKOK` leaves what its length check or its comparison raises, whichever byte differs. -/
theorem exec_logo_next_of_not_ckok {s t : State} (h : exec .logo s = .next t)
    (hckok : t.status.ckok = false) :
    t = { s with status := Status.failure (if s.imgLen.toNat < 0x150 then 1 else 3) } := by
  rw [exec_logo] at h
  split_ifs at h ⊢ <;> cases h
  · rfl
  · rfl
  · cases hckok

/-- Settles O57: `diffBytes_eq_zero_iff`, and an error of `LOGO` that depends on `IMG_LEN` alone. -/
theorem comparisonReportsOnlyVerdict : Obligations.ComparisonReportsOnlyVerdict := by
  refine ⟨fun bs ref h => diffBytes_eq_zero_iff h, fun s t t' g g' h h' hckok hckok' => ?_⟩
  obtain rfl := exec_logo_next_of_not_ckok h hckok
  obtain rfl := exec_logo_next_of_not_ckok h' hckok'
  exact ⟨rfl, rfl⟩

/-! ### Which changes `HCK` finds -/

/-- Settles O56: with the stored byte kept, the verdict follows the checksum, which one changed byte changes and an equal
sum mod 256 keeps. -/
theorem checksumDetectsOneByteChange : Obligations.ChecksumDetectsOneByteChange := by
  intro s t g hpass hckok hsize hstored
  obtain ⟨hlen, hport, hmatch⟩ := (exec_hck_passes_iff s).1 ⟨t, hpass, hckok⟩
  have hport' : 0x14D < g.size := hsize.symm ▸ hport
  constructor
  · intro a hlo hhi hne hsame
    have hchanged : headerChecksum { s with image := g } ≠ memoryRead g.bytes 0x14D := by
      rw [hstored, ← hmatch]
      refine headerSum_ne_of_one_byte List.nodup_range' (List.mem_range'_1.2 ⟨hlo, hhi⟩) hne ?_ _
      intro x hx
      obtain ⟨hxlo, hxhi⟩ := List.mem_range'_1.1 hx
      exact hsame x hxlo hxhi
    rw [exec_hck, if_neg (Nat.not_lt.2 hlen), if_neg (Nat.not_le.2 hport'), if_pos hchanged]
    exact ⟨_, rfl, rfl⟩
  · intro hsum
    have hkept : headerChecksum { s with image := g } = memoryRead g.bytes 0x14D := by
      rw [hstored, ← hmatch]
      refine headerSum_eq_of_sum_mod _ (by rw [List.length_map, List.length_map]) ?_
      rw [List.map_map, List.map_map]
      exact hsum
    rw [exec_hck, if_neg (Nat.not_lt.2 hlen), if_neg (Nat.not_le.2 hport'),
      if_neg (not_not_intro hkept)]
    exact ⟨_, rfl, rfl, rfl⟩

/-! ### `RESULT` after an error -/

/-- If the command ends with an error, `RESULT` is as it was (R135, R204). -/
def ErrorKeepsResult (s : State) (o : Out) : Prop :=
  ∀ t, o = .next t → t.status.err ≠ 0 → t.result = s.result

theorem refused_keepsResult (s : State) (r : Refusal) : ErrorKeepsResult s (.refused r) := by
  rintro t ⟨⟩

theorem status_keepsResult (s : State) (st : Status) :
    ErrorKeepsResult s (.next { s with status := st }) := by
  rintro t ⟨⟩ -
  rfl

theorem success_keepsResult (s : State) (v : Half) (c u : Bool) :
    ErrorKeepsResult s (.next { s with result := v, status := s.status.success c u }) := by
  rintro t ⟨⟩ herr
  exact absurd rfl herr

theorem ErrorKeepsResult.ite {s : State} {o o' : Out} (p : Prop) [Decidable p]
    (h : ErrorKeepsResult s o) (h' : ErrorKeepsResult s o') :
    ErrorKeepsResult s (if p then o else o') := by
  split
  · exact h
  · exact h'

/-- Every command but `HCK` writes `RESULT` only where it succeeds. -/
theorem exec_errorKeepsResult {i : Instr} (hi : i ≠ .hck) (s : State) :
    ErrorKeepsResult s (exec i s) := by
  have hfail := status_keepsResult s
  have hok := success_keepsResult s
  have hrefused := refused_keepsResult s .noImageByte
  cases i with
  | ext off width =>
    rw [exec_ext]
    exact .ite _ (hfail _) (hok _ _ _)
  | extm off width addr =>
    rw [exec_extm]
    exact .ite _ (hfail _) (.ite _ (hfail _) (.ite _ hrefused (hok _ _ _)))
  | enc off width =>
    rw [exec_enc]
    exact .ite _ (hfail _) (hok _ _ _)
  | enca off width =>
    rw [exec_enca]
    exact .ite _ (hfail _) (hok _ _ _)
  | hck => exact absurd rfl hi
  | gck =>
    rw [exec_gck]
    exact .ite _ (hfail _) (.ite _ hrefused (hok _ _ _))
  | logo =>
    rw [exec_logo]
    exact .ite _ (hfail _) (.ite _ hrefused (.ite _ (hfail _) (hfail _)))
  | magic =>
    rw [exec_magic]
    exact .ite _ (hfail _) (.ite _ hrefused (.ite _ (hfail _) (hfail _)))

/-- How `HCK` ends: too short, with `RESULT` kept; or with the computed checksum in `RESULT`, whether it matches the
stored byte or not (R134, R135). -/
theorem exec_hck_next {s t : State} (h : exec .hck s = .next t) :
    (t.status.err = 1 ∧ t.result = s.result) ∨
      (0x14D < s.image.size ∧ (t.status.err = 4 ∨ t.status.err = 0) ∧
        t.result = (headerChecksum s).setWidth 16) := by
  rw [exec_hck] at h
  split_ifs at h with hlen hsize hne <;> cases h
  · exact .inl ⟨rfl, rfl⟩
  · exact .inr ⟨Nat.not_le.1 hsize, .inl rfl, rfl⟩
  · exact .inr ⟨Nat.not_le.1 hsize, .inr rfl, rfl⟩

/-- An error with a changed `RESULT` is `HCK`'s mismatch (R135). -/
theorem commandStep_error_changes_result {w : Word} {s t : State} (h : commandStep w s = .next t)
    (herr : t.status.err ≠ 0) (hresult : t.result ≠ s.result) :
    decode w = .command .hck ∧ t.status.err = 4 := by
  cases hw : decode w with
  | illegal why =>
    rw [commandStep_of_illegal hw] at h
    exact absurd (status_keepsResult s _ t h herr) hresult
  | command i =>
    rw [commandStep_of_command hw] at h
    obtain rfl : i = .hck := by
      by_contra hi
      exact hresult (exec_errorKeepsResult hi s t h herr)
    obtain ⟨-, hkept⟩ | ⟨-, herr' | herr', -⟩ := exec_hck_next h
    · exact absurd hkept hresult
    · exact ⟨rfl, herr'⟩
    · exact absurd herr' herr

/-- Settles O31: `exec_hck_next` for `HCK`; a word of any other command keeps `RESULT` when it errs, and the only word
of `HCK` is its encoding. -/
theorem hckLeavesComputedChecksum : Obligations.HckLeavesComputedChecksum := by
  refine ⟨fun s t h herr => ?_, fun s t h herr => ?_, fun w s t h herr hresult => ?_⟩
  · obtain ⟨hshort, -⟩ | ⟨hsize, -, hresult⟩ := exec_hck_next h
    · rw [herr] at hshort
      exact absurd hshort (by decide)
    · exact ⟨_, imageBytes_of_le (Nat.le_of_lt hsize), hresult⟩
  · obtain ⟨-, hkept⟩ | ⟨-, hcode, -⟩ := exec_hck_next h
    · exact hkept
    · rw [herr] at hcode
      exact absurd hcode (by decide)
  · obtain ⟨hdecode, hcode⟩ := commandStep_error_changes_result h herr hresult
    exact ⟨(encodeOfDecode w .hck hdecode).2.symm, hcode⟩

end Sys2Proof.Machine
end

section
/-! SUPPORT. The header field catalogue: the format the host reads from the format selector (R172), and the words of the
catalogue's commands. -/

namespace Sys2Proof.Machine

theorem formatOfSelector_eq_nes20_iff (r : Half) : formatOfSelector r = .nes20 ↔ r = 2 := by
  unfold formatOfSelector
  split
  · exact iff_of_true rfl ‹_›
  · exact iff_of_false (by decide) ‹_›

theorem formatOfSelector_eq_iNES_iff (r : Half) : formatOfSelector r = .iNES ↔ ¬r = 2 := by
  unfold formatOfSelector
  split
  · exact iff_of_false (by decide) (not_not.2 ‹_›)
  · exact iff_of_true rfl ‹_›

/-- A field of width 2 as a number: its upper bit counts twice (R9, R100). -/
theorem toNat_div_mod_four (b : Byte) (off : Nat) :
    b.toNat / 2 ^ off % 2 ^ 2 = 2 * (b.getLsbD (off + 1)).toNat + (b.getLsbD off).toNat := by
  rw [← BitVec.testBit_toNat, ← BitVec.testBit_toNat, Nat.toNat_testBit, Nat.toNat_testBit,
    Nat.pow_succ 2 off, ← Nat.div_div_eq_div_mul]
  omega

/-- The selector value 2 is binary 10. -/
theorem eq_two_iff_bits {r : Half} {hi lo : Bool} (h : r.toNat = 2 * hi.toNat + lo.toNat) :
    r = 2 ↔ hi = true ∧ lo = false := by
  rw [← BitVec.toNat_inj, h]
  cases hi <;> cases lo <;> decide

/-- Settles O59: `EXTM 2, 2, 7` leaves the two bits as a number, which is 2 iff they are binary 10. -/
theorem formatSelectorDecidesNes20 : Obligations.FormatSelectorDecidesNes20 := by
  intro s hlen hsize b
  obtain ⟨r, hr, hexec⟩ := extmExtractsFieldOfImageByte s 2 2 7 (by decide) (by decide) (by decide)
    hlen hsize
  have hbits : r.toNat = 2 * (b.getLsbD 3).toNat + (b.getLsbD 2).toNat :=
    hr.trans (toNat_div_mod_four b 2)
  have htwo := eq_two_iff_bits hbits
  exact ⟨_, hexec, rfl, hbits, (formatOfSelector_eq_nes20_iff r).trans htwo,
    (formatOfSelector_eq_iNES_iff r).trans (not_congr htwo)⟩

/-- Settles O60: the encoder run on each command of the catalogue. -/
theorem catalogueWords : Obligations.CatalogueWords := by
  unfold Obligations.CatalogueWords
  decide

end Sys2Proof.Machine
end

section
/-! SUPPORT. The errors of 60_exceptions.md: the checks of a command in their order (R208), the code each of them leaves
(R200), what an error writes (R204), and the refusal of a second host (R216). -/

namespace Sys2Proof.Machine

/-! ### The checks in their order -/

theorem descriptorValid_eq_false_iff (off width : Nat) :
    descriptorValid off width = false ↔ 8 < off + width := by
  rw [descriptorValid, decide_eq_false_iff_not, Nat.not_le]

theorem not_lt_of_descriptorValid {off width : Nat} (h : descriptorValid off width = true) :
    ¬8 < off + width :=
  Nat.not_lt.2 (of_decide_eq_true h)

/-- The descriptor is checked before everything else (R101, R208). -/
theorem exec_of_not_descriptorFits {i : Instr} (h : descriptorFits i = false) (s : State) :
    exec i s = .next { s with status := Status.failure 5 } := by
  cases i with
  | ext off width => rw [exec_ext, if_pos ((descriptorValid_eq_false_iff _ _).1 h)]
  | extm off width addr => rw [exec_extm, if_pos ((descriptorValid_eq_false_iff _ _).1 h)]
  | enc off width => rw [exec_enc, if_pos ((descriptorValid_eq_false_iff _ _).1 h)]
  | enca off width => rw [exec_enca, if_pos ((descriptorValid_eq_false_iff _ _).1 h)]
  | hck | gck | logo | magic => cases h

/-- The length is checked next, before any byte is read (R208). -/
theorem exec_of_lt_lengthNeeded {i : Instr} {s : State} (hfits : descriptorFits i = true)
    (hshort : s.imgLen.toNat < lengthNeeded i) :
    exec i s = .next { s with status := Status.failure (lengthErrorCode i) } := by
  cases i with
  | ext | enc | enca => exact absurd hshort (Nat.not_lt_zero _)
  | extm off width addr =>
    rw [exec_extm, if_neg (not_lt_of_descriptorValid hfits), if_pos (Nat.le_of_lt_succ hshort)]
    rfl
  | hck => exact (exec_hck s).trans (if_pos hshort)
  | gck => exact (exec_gck s).trans (if_pos hshort)
  | logo => exact (exec_logo s).trans (if_pos hshort)
  | magic => exact (exec_magic s).trans (if_pos hshort)

/-! ### The comparison that comes last -/

/-- The code that the comparison of a command leaves, 0 where there is none or it finds no difference (R200). -/
def mismatchCode (s : State) : Instr → BitVec 4
  | .ext _ _ | .extm _ _ _ | .enc _ _ | .enca _ _ | .gck => 0
  | .hck =>
    if (imageBytes s.image 0x134 25).map (headerSum s.params.hckInit) ≠ imageByte s.image 0x14D then 4
    else 0
  | .logo => if imageBytes s.image 0x104 48 ≠ some s.params.logoRef.toList then 3 else 0
  | .magic => if imageBytes s.image 0 4 ≠ some Config.nesMagic then 2 else 0

theorem mismatchCode_cases (s : State) (i : Instr) :
    mismatchCode s i = 0 ∨ (i = .magic ∧ mismatchCode s i = 2) ∨ (i = .logo ∧ mismatchCode s i = 3) ∨
      (i = .hck ∧ mismatchCode s i = 4) := by
  cases i with
  | ext | extm | enc | enca | gck => exact .inl rfl
  | hck | logo | magic =>
    rw [mismatchCode]
    split <;> simp

/-- Where the port delivers byte 0x14D, `HCK` compares what the image reads as. -/
theorem headerChecksum_ne_iff {s : State} (h : 0x14D < s.image.size) :
    headerChecksum s ≠ memoryRead s.image.bytes 0x14D ↔
      (imageBytes s.image 0x134 25).map (headerSum s.params.hckInit) ≠ imageByte s.image 0x14D := by
  rw [imageBytes_of_le (Nat.le_of_lt h), imageByte_of_lt h, Option.map_some, ne_eq, ne_eq,
    Option.some_inj, headerChecksum]

theorem logoDiff_ne_zero_iff {s : State} (h : 0x134 ≤ s.image.size) :
    logoDiff s ≠ 0 ↔ imageBytes s.image 0x104 48 ≠ some s.params.logoRef.toList := by
  rw [imageBytes_of_le h, ne_eq, ne_eq, Option.some_inj, logoDiff, diffBytes_eq_zero_iff (by simp)]

theorem magicDiff_ne_zero_iff {s : State} (h : 4 ≤ s.image.size) :
    magicDiff s ≠ 0 ↔ imageBytes s.image 0 4 ≠ some Config.nesMagic := by
  rw [imageBytes_of_le h, ne_eq, ne_eq, Option.some_inj, magicDiff, diffBytes_eq_zero_iff (by rfl)]

/-- If the command ends, `ERR` is the code. -/
def LeavesErr (code : BitVec 4) (o : Out) : Prop := ∀ t, o = .next t → t.status.err = code

theorem leavesErr_next (t : State) : LeavesErr t.status.err (.next t) := by
  rintro t ⟨⟩
  rfl

theorem LeavesErr.of_not {p : Prop} [Decidable p] {code : BitVec 4} {o o' : Out} (hp : ¬p)
    (h : LeavesErr code o') : LeavesErr code (if p then o else o') := by
  rwa [if_neg hp]

theorem LeavesErr.of_delivered {p : Prop} [Decidable p] {code : BitVec 4} {r : Refusal} {o : Out}
    (h : ¬p → LeavesErr code o) : LeavesErr code (if p then .refused r else o) := by
  split
  · rintro t ⟨⟩
  · exact h ‹_›

theorem LeavesErr.ite {p q : Prop} [Decidable p] [Decidable q] {code code' : BitVec 4} {o o' : Out}
    (hpq : p ↔ q) (h : LeavesErr code o) (h' : LeavesErr code' o') :
    LeavesErr (if q then code else code') (if p then o else o') := by
  rw [if_congr hpq rfl rfl]
  split
  · exact h
  · exact h'

/-- With both checks passed, the comparison alone decides the code (R208). -/
theorem exec_leavesErr_mismatchCode {i : Instr} {s : State} (hfits : descriptorFits i = true)
    (hlen : lengthNeeded i ≤ s.imgLen.toNat) : LeavesErr (mismatchCode s i) (exec i s) := by
  cases i with
  | ext off width =>
    rw [exec_ext]
    exact .of_not (not_lt_of_descriptorValid hfits) (leavesErr_next _)
  | extm off width addr =>
    rw [exec_extm]
    exact .of_not (not_lt_of_descriptorValid hfits)
      (.of_not (Nat.not_le.2 hlen) (.of_delivered fun _ => leavesErr_next _))
  | enc off width =>
    rw [exec_enc]
    exact .of_not (not_lt_of_descriptorValid hfits) (leavesErr_next _)
  | enca off width =>
    rw [exec_enca]
    exact .of_not (not_lt_of_descriptorValid hfits) (leavesErr_next _)
  | hck =>
    rw [exec_hck]
    exact .of_not (Nat.not_lt.2 hlen) (.of_delivered fun hsize =>
      .ite (headerChecksum_ne_iff (Nat.not_le.1 hsize)) (leavesErr_next _) (leavesErr_next _))
  | gck =>
    rw [exec_gck]
    exact .of_not (Nat.not_lt.2 hlen) (.of_delivered fun _ => leavesErr_next _)
  | logo =>
    rw [exec_logo]
    exact .of_not (Nat.not_lt.2 hlen) (.of_delivered fun hsize =>
      .ite (logoDiff_ne_zero_iff (Nat.not_lt.1 hsize)) (leavesErr_next _) (leavesErr_next _))
  | magic =>
    rw [exec_magic]
    exact .of_not (Nat.not_lt.2 hlen) (.of_delivered fun hsize =>
      .ite (magicDiff_ne_zero_iff (Nat.not_lt.1 hsize)) (leavesErr_next _) (leavesErr_next _))

/-- Settles O28: the checks in their order, each with its whole next state, and the comparison's code last. -/
theorem errorPriority : Obligations.ErrorPriority := by
  intro w s
  refine ⟨fun why hw => commandStep_of_illegal hw s, fun i hw hfits => ?_,
    fun i hw hfits hshort => ?_, fun i t hw hfits hlen h => ?_⟩
  · rw [commandStep_of_command hw, exec_of_not_descriptorFits hfits]
  · rw [commandStep_of_command hw, exec_of_lt_lengthNeeded hfits hshort]
  · rw [commandStep_of_command hw] at h
    rw [exec_leavesErr_mismatchCode hfits hlen t h]
    exact mismatchCode_cases s i

/-! ### The code of a command -/

/-- The code a command ends with, by the order of R208. -/
def commandError (s : State) (i : Instr) : BitVec 4 :=
  if descriptorFits i = false then 5
  else if s.imgLen.toNat < lengthNeeded i then lengthErrorCode i
  else mismatchCode s i

/-- `commandError` is the code that `exec` leaves. -/
theorem exec_leavesErr_commandError (i : Instr) (s : State) :
    LeavesErr (commandError s i) (exec i s) := by
  unfold commandError
  split_ifs with hfits hshort
  · rw [exec_of_not_descriptorFits hfits]
    exact leavesErr_next _
  · rw [exec_of_lt_lengthNeeded (Bool.eq_true_of_not_eq_false hfits) hshort]
    exact leavesErr_next _
  · exact exec_leavesErr_mismatchCode (Bool.eq_true_of_not_eq_false hfits) (Nat.not_lt.1 hshort)

theorem lengthErrorCode_cases (i : Instr) : lengthErrorCode i = 1 ∨ lengthErrorCode i = 6 := by
  cases i with
  | extm => exact .inr rfl
  | ext | enc | enca | hck | gck | logo | magic => exact .inl rfl

/-! The codes of the three checks are apart: 5 of the descriptor, 1 and 6 of the length, 0 and 2 to 4 of the
comparison. -/

theorem commandError_eq_descriptor_iff (s : State) (i : Instr) :
    commandError s i = 5 ↔ descriptorFits i = false := by
  unfold commandError
  split_ifs with hfits hshort
  · exact iff_of_true rfl hfits
  · obtain h | h := lengthErrorCode_cases i <;> simp [h, hfits]
  · obtain h | ⟨-, h⟩ | ⟨-, h⟩ | ⟨-, h⟩ := mismatchCode_cases s i <;> simp [h, hfits]

theorem commandError_eq_length_iff (s : State) (i : Instr) {code : BitVec 4}
    (hcode : code = 1 ∨ code = 6) :
    commandError s i = code ↔
      descriptorFits i = true ∧ s.imgLen.toNat < lengthNeeded i ∧ lengthErrorCode i = code := by
  unfold commandError
  split_ifs with hfits hshort
  · obtain rfl | rfl := hcode <;> simp [hfits]
  · simp [hfits, hshort]
  · obtain rfl | rfl := hcode <;>
      obtain h | ⟨-, h⟩ | ⟨-, h⟩ | ⟨-, h⟩ := mismatchCode_cases s i <;> simp [h, hshort]

theorem commandError_eq_mismatch_iff (s : State) (i : Instr) {code : BitVec 4}
    (hcode : code = 2 ∨ code = 3 ∨ code = 4) :
    commandError s i = code ↔
      descriptorFits i = true ∧ lengthNeeded i ≤ s.imgLen.toNat ∧ mismatchCode s i = code := by
  unfold commandError
  split_ifs with hfits hshort
  · obtain rfl | rfl | rfl := hcode <;> simp [hfits]
  · obtain rfl | rfl | rfl := hcode <;> obtain h | h := lengthErrorCode_cases i <;>
      simp [h, Nat.not_le.2 hshort]
  · simp [hfits, Nat.not_lt.1 hshort]

theorem commandError_lt_seven (s : State) (i : Instr) : commandError s i < 7 := by
  unfold commandError
  split_ifs
  · decide
  · obtain h | h := lengthErrorCode_cases i <;> simp [h]
  · obtain h | ⟨-, h⟩ | ⟨-, h⟩ | ⟨-, h⟩ := mismatchCode_cases s i <;> simp [h]

/-! ### The cause of each code -/

/-- `HeaderTooShort` (R200). -/
theorem commandError_eq_one_iff (s : State) (i : Instr) :
    commandError s i = 1 ↔
      ((i = .hck ∨ i = .gck ∨ i = .logo) ∧ s.imgLen.toNat < 0x150) ∨
        (i = .magic ∧ s.imgLen.toNat < 16) := by
  rw [commandError_eq_length_iff s i (.inl rfl)]
  cases i <;> simp [descriptorFits, lengthNeeded, lengthErrorCode]

/-- `ImageRange` (R200). -/
theorem commandError_eq_six_iff (s : State) (i : Instr) :
    commandError s i = 6 ↔
      ∃ off width addr, i = .extm off width addr ∧ off + width ≤ 8 ∧ s.imgLen.toNat ≤ addr := by
  rw [commandError_eq_length_iff s i (.inr rfl)]
  cases i <;> simp [descriptorFits, descriptorValid, lengthNeeded, lengthErrorCode, Nat.lt_succ_iff]

/-- A code that only the comparison of one command leaves. -/
theorem commandError_eq_iff_differs {s : State} {i j : Instr} {code : BitVec 4} {differs : Prop}
    (hcode : code = 2 ∨ code = 3 ∨ code = 4) (hj : descriptorFits j = true)
    (h : mismatchCode s i = code ↔ i = j ∧ differs) :
    commandError s i = code ↔ i = j ∧ lengthNeeded j ≤ s.imgLen.toNat ∧ differs := by
  rw [commandError_eq_mismatch_iff s i hcode, h]
  constructor
  · rintro ⟨-, hlen, rfl, hdiffers⟩
    exact ⟨rfl, hlen, hdiffers⟩
  · rintro ⟨rfl, hlen, hdiffers⟩
    exact ⟨hj, hlen, rfl, hdiffers⟩

/-- `InvalidMagic`, `InvalidLogo` and `InvalidHeaderChecksum` (R200). -/
theorem mismatchCode_causes (s : State) (i : Instr) :
    (mismatchCode s i = 2 ↔ i = .magic ∧ imageBytes s.image 0 4 ≠ some Config.nesMagic) ∧
    (mismatchCode s i = 3 ↔
      i = .logo ∧ imageBytes s.image 0x104 48 ≠ some s.params.logoRef.toList) ∧
    (mismatchCode s i = 4 ↔
      i = .hck ∧ (imageBytes s.image 0x134 25).map (headerSum s.params.hckInit) ≠
        imageByte s.image 0x14D) := by
  cases i with
  | ext | extm | enc | enca | gck => simp [mismatchCode]
  | hck | logo | magic =>
    rw [mismatchCode]
    split <;> simp [*]

/-- Settles O29: a command leaves `commandError`, whose causes are said code by code, and an illegal word 7. -/
theorem errorCodesHaveTheirCauses : Obligations.ErrorCodesHaveTheirCauses := by
  intro w s t h
  cases hw : decode w with
  | illegal why =>
    rw [commandStep_of_illegal hw] at h
    cases h
    simp [Status.failure]
  | command i =>
    rw [commandStep_of_command hw] at h
    have hlt := commandError_lt_seven s i
    obtain ⟨hmagic, hlogo, hchecksum⟩ := mismatchCode_causes s i
    simp only [exec_leavesErr_commandError i s t h, Decoded.command.injEq, exists_eq_left',
      reduceCtorEq, exists_false, iff_false]
    exact ⟨commandError_eq_one_iff s i,
      commandError_eq_iff_differs (.inl rfl) rfl hmagic,
      commandError_eq_iff_differs (.inr (.inl rfl)) rfl hlogo,
      commandError_eq_iff_differs (.inr (.inr rfl)) rfl hchecksum,
      commandError_eq_descriptor_iff s i, commandError_eq_six_iff s i, BitVec.ne_of_lt hlt,
      BitVec.le_of_lt hlt⟩

/-! ### What an error writes, and what is refused -/

/-- The end of a command with a code other than 0 is a failure with that code (R90, R204). -/
theorem statusAfter_of_ne_zero (t : Status) {e : BitVec 4} (he : e ≠ 0) :
    statusAfter t e false false = Status.failure e := by
  rw [statusAfter, bne_iff_ne.2 he, Bool.or_true, Status.failure]

/-- Settles O30: `commandStep_next` gives the frame and the flags, and an error that changes `RESULT` is `HCK`'s. -/
theorem whatAnErrorWrites : Obligations.WhatAnErrorWrites := by
  intro w s t h
  have hresult := commandStep_error_changes_result h
  obtain ⟨r, e, c, u, rfl, -, hflags, -⟩ := commandStep_next h
  refine ⟨⟨rfl, rfl, rfl⟩, fun herr => ⟨?_, or_iff_not_imp_left.2 (hresult herr)⟩⟩
  obtain ⟨rfl, rfl⟩ := hflags herr
  exact statusAfter_of_ne_zero s.status herr

/-- Settles O50: serving an access by a second host refuses it by name. -/
theorem secondHostIsRefused : Obligations.SecondHostIsRefused := by
  intro s rest hp
  rw [step_of_pending hp, serve]

end Sys2Proof.Machine
end

section
/-! SUPPORT. The block in reset and at its release (R230): what a read finds while reset is asserted, and what a step
that serves the release answers. -/

namespace Sys2Proof.Machine

/-- While reset is asserted every word reads as 0 (R230). -/
theorem portRead_of_inReset {s : State} (hreset : s.inReset = true) (r : PortReg) :
    portRead s r = 0 := by
  rw [portRead, if_pos hreset]

/-- A step that serves the release of reset. -/
theorem step_releaseReset {s : State} {rest : List HostEvent} (h : s.pending = .releaseReset :: rest) :
    step s = .next (lowerReset { s with pending := rest }) := by
  rw [step_of_pending h, serve]

/-- Settles O42: `step_read` and `step_write_of_inReset` for the two accesses, and `lowerReset` with reset asserted and
without. -/
theorem resetIgnoresHostAndClears : Obligations.ResetIgnoresHostAndClears := by
  refine ⟨fun s rest hreset => ⟨fun n hal hlt hp => ?_, fun n d hal hlt hp => ?_, fun hp => ?_⟩,
    fun s rest hreset hp => ?_⟩
  · obtain ⟨r, rfl⟩ := exists_regOffset hal hlt
    rw [step_read r hp, portRead_of_inReset hreset]
  · obtain ⟨r, rfl⟩ := exists_regOffset hal hlt
    exact step_write_of_inReset r hreset hp
  · rw [step_releaseReset hp, lowerReset_of_inReset { s with pending := rest } hreset]
    rfl
  · rw [step_releaseReset hp, lowerReset_of_not_inReset { s with pending := rest } hreset]

end Sys2Proof.Machine
end
